-- ==== Sys2Proof/Word.lean ====
section
/-! DEFINITION. The units in which TQS moves data: the 32-bit action word, which ENQUEUE moves and a queue slot
holds whole (rules R63, R66, R80), and the 8-bit value that the shift register holds and a callback receives. -/

namespace Sys2Proof

/-- One action word: the 32-bit unit of the ENQUEUE port and of a queue slot. It has no byte view (rules R63, R80). -/
abbrev Word := BitVec 32

/-- One 8-bit value: the content of SR and the argument of a callback (rules R34, R66). -/
abbrev Byte := BitVec 8

end Sys2Proof
end

