-- ==== Sys2Proof/Syntax.lean ====
section
/-! DEFINITION. The instruction set: the six Timed Action kinds (rules R3, R82), one constructor for each row of
spec/opcode_table.json, each with the two operands every action carries (rules R26, R80, R92): the hold in µs and the
optional callback handle. Operands are naturals, as the assembler's syntax writes them (rule R92); which of them an
action word can carry is WellFormed.lean's business. -/

namespace Sys2Proof

/-- One Timed Action, `Kind(hold)` or `Kind(hold, cb=n)` (rules R26, R92). -/
inductive Instr where
  /-- Drive the bus line low for the slot (rule R120). -/
  | busLow (hold : Nat) (cb : Option Nat)
  /-- Release the bus line to high impedance for the slot (rule R121). -/
  | releaseBus (hold : Nat) (cb : Option Nat)
  /-- Sample the line, shift the bit into SR, optionally call back with it (rule R122). -/
  | sampleBit (hold : Nat) (cb : Option Nat)
  /-- Deliver the assembled byte in SR to the callback (rule R123). -/
  | transferByte (hold : Nat) (cb : Option Nat)
  /-- A reserved scheduling slot with no effect (rule R124). -/
  | waitForBusHigh (hold : Nat) (cb : Option Nat)
  /-- Zero the shift register (rule R125). -/
  | clearShiftRegister (hold : Nat) (cb : Option Nat)
  deriving DecidableEq, Repr

/-- The fault codes of an ill-formed ENQUEUE (rules R171, R172). -/
inductive FaultCode where
  /-- RSVD_KIND, FAULT bit 0: the word carries a reserved kind code (rule R171). -/
  | rsvdKind
  /-- RSVD_BITS, FAULT bit 1: the word carries nonzero reserved bits, or a handle without CBV (rule R172). -/
  | rsvdBits
  deriving DecidableEq, Repr

namespace Instr

/-- The hold operand in µs (rule R83). -/
def hold : Instr → Nat
  | .busLow h _ => h
  | .releaseBus h _ => h
  | .sampleBit h _ => h
  | .transferByte h _ => h
  | .waitForBusHigh h _ => h
  | .clearShiftRegister h _ => h

/-- The optional callback handle (rules R84, R85). -/
def callback : Instr → Option Nat
  | .busLow _ c => c
  | .releaseBus _ c => c
  | .sampleBit _ c => c
  | .transferByte _ c => c
  | .waitForBusHigh _ c => c
  | .clearShiftRegister _ c => c

/-- The KIND code (rule R82). -/
def kind : Instr → Nat
  | .busLow _ _ => 0
  | .releaseBus _ _ => 1
  | .sampleBit _ _ => 2
  | .transferByte _ _ => 3
  | .waitForBusHigh _ _ => 4
  | .clearShiftRegister _ _ => 5

end Instr

end Sys2Proof
end

