-- ==== Sys2Proof/WellFormed.lean ====
section
/-! DEFINITION. Which actions have an action word: the two range checks the assembler makes on an action line (rule
R93), which are the widths of the HOLD and CBID fields (rules R15, R16, R81). -/

namespace Sys2Proof.Instr

/-- The hold is "a decimal integer from 0 to 65535" (rule R92), so it fits the 16-bit HOLD field (rule R83). -/
def holdFits (i : Instr) : Bool := decide (i.hold ≤ 65535)

/-- The handle, if there is one, is "a decimal integer from 0 to 255" (rule R92), so it fits the 8-bit CBID field
(rule R85). -/
def handleFits (i : Instr) : Bool :=
  match i.callback with
  | none => true
  | some n => decide (n ≤ 255)

/-- An action that an action word can carry (rules R87, R93). -/
def wellFormed (i : Instr) : Bool := i.holdFits && i.handleFits

end Sys2Proof.Instr
end

