-- ==== Sys2Proof/Decode.lean ====
section
/-! DEFINITION. Decode and encode of the action word (30_encoding.md). Decode is total on every 32-bit word (rules
R91, R95) and rejects a reserved word by the fault codes that name what is wrong with it (rules R88, R89). -/

namespace Sys2Proof

/-! ### The fields of rule R81 -/

/-- HOLD = w[31:16], zero-extended to a number of µs (rule R83). -/
def holdField (w : Word) : Nat := (w.extractLsb' 16 16).toNat

/-- CBID = w[15:8] (rule R85). -/
def cbidField (w : Word) : Nat := (w.extractLsb' 8 8).toNat

/-- CBV = w[7] (rule R84). -/
def cbvField (w : Word) : Bool := w.getLsbD 7

/-- RSVD = w[6:3] (rule R86). -/
def rsvdField (w : Word) : Nat := (w.extractLsb' 3 4).toNat

/-- KIND = w[2:0] (rule R82). -/
def kindField (w : Word) : Nat := (w.extractLsb' 0 3).toNat

/-- The optional callback the word carries: `Some(w[15:8])` if w[7] = 1, else `None` (rules R84, R95). -/
def callbackField (w : Word) : Option Nat := if cbvField w then some (cbidField w) else none

/-! ### Well-formedness -/

/-- WF(w), the three conditions of rule R87. -/
def wfWord (w : Word) : Bool :=
  decide (kindField w ≤ 5) && decide (rsvdField w = 0) && (cbvField w || decide (cbidField w = 0))

/-- What is wrong with a word: the set of codes that ENQUEUE's first two lines gather (rules R88, R89, R100), listed
RSVD_KIND first. -/
def rsvdCodes (w : Word) : List FaultCode :=
  (if 5 < kindField w then [.rsvdKind] else []) ++
  (if rsvdField w ≠ 0 ∨ (cbvField w = false ∧ cbidField w ≠ 0) then [.rsvdBits] else [])

/-! ### Decode -/

/-- The result of Dec(w) (rule R95). -/
inductive Decoded where
  /-- The word is well-formed and stands for this action. -/
  | action (i : Instr)
  /-- The word is reserved, for these reasons. -/
  | reserved (codes : List FaultCode)
  deriving DecidableEq, Repr

/-- The action of a KIND code; codes 6 and 7 are reserved (rules R82, R88). -/
def ofKind : Nat → Nat → Option Nat → Option Instr
  | 0, h, c => some (.busLow h c)
  | 1, h, c => some (.releaseBus h c)
  | 2, h, c => some (.sampleBit h c)
  | 3, h, c => some (.transferByte h c)
  | 4, h, c => some (.waitForBusHigh h c)
  | 5, h, c => some (.clearShiftRegister h c)
  | _, _, _ => none

/-- Dec(w): total on every word (rule R95). -/
def decode (w : Word) : Decoded :=
  match rsvdCodes w, ofKind (kindField w) (holdField w) (callbackField w) with
  | [], some i => .action i
  | codes, _ => .reserved codes

/-! ### Encode -/

/-- `{hold[15:0], cbid[7:0], cbv, 0b0000, kind[2:0]}` (rule R95; layout of rule R81). -/
def packWord (kind hold cbid : Nat) (cbv : Bool) : Word :=
  BitVec.ofNat 16 hold ++ BitVec.ofNat 8 cbid ++ BitVec.ofBool cbv ++ 0#4 ++ BitVec.ofNat 3 kind

/-- Enc(kind, hold, cb), "where cbid = 0 and cbv = 0 for `None`" (rule R95). -/
def encode (i : Instr) : Word :=
  match i.callback with
  | none => packWord i.kind i.hold 0 false
  | some n => packWord i.kind i.hold n true

/-- The instruction the decoder reads from an opcode-table row's word: the table's rows have 32 bits, numbered as the
action word's own (rules R22, R81); every bit above `nbits` is 0. -/
def decodeTableWord (nbits w : Nat) : Option Instr :=
  match decode (BitVec.ofNat 32 (w % 2 ^ nbits)) with
  | .action i => some i
  | .reserved _ => none

end Sys2Proof
end

