-- ==== Sys2Proof/Config.lean ====
section
/-! DEFINITION. The implementation parameters of 00_scope.md section 4 (rules R10 to R20), with the constraints the
spec puts on them as proof fields, so that a configuration that breaks one cannot be written ("A configuration that
breaks this constraint is refused", rule R14). Below them stand the free values: constants with no body, of which
nothing can be proved, for the OPEN parameters and for the two draws (LAT, rule R21, and ENV, rule R143). -/

namespace Sys2Proof

/-- QDISC: how queue storage is reused (rule R11). -/
inductive QDisc where
  /-- Capacity is spent by every append since the queue was last empty. -/
  | linear
  /-- Capacity is spent by current occupancy. -/
  | ring
  deriving DecidableEq, Repr

/-- The parameters of one TQS, fixed for its life (rules R10 to R20, R46). HOLD_BITS, CBID_BITS and TMR_BITS are the
widths 16, 8 and 32 that rules R15 to R17 give and the encoding R81 uses, so they are no fields (log entry 14). -/
structure Config where
  /-- CAP, the number of queue slots (rule R10). -/
  cap : Nat
  /-- QDISC, the storage discipline (rule R11). -/
  qdisc : QDisc
  /-- MIN_HOLD_US, the floor on every armed duration (rule R12). -/
  minHoldUs : Nat
  /-- IDLE_POLL_US, the duration armed when the queue is found empty (rule R13). -/
  idlePollUs : Nat
  /-- TICKS_PER_US, timer ticks in one microsecond (rule R14). -/
  ticksPerUs : Nat
  /-- W1_LOW_US, the BusLow hold of a write-1 bit (rule R18). -/
  w1LowUs : Nat
  /-- RD_LOW_US, the BusLow hold of a read bit (rule R19). -/
  rdLowUs : Nat
  /-- READ_BYTE_CLEAR: ABSENT, or PRESENT(h) (rule R20). -/
  readByteClear : Option Nat
  /-- "CAP ≥ 1 is required" (rule R10). -/
  cap_pos : 1 ≤ cap := by decide
  /-- "MIN_HOLD_US ≥ 1 is required" (rule R12). -/
  minHold_pos : 1 ≤ minHoldUs := by decide
  /-- MIN_HOLD_US ≤ IDLE_POLL_US ≤ 2^HOLD_BITS − 1 (rule R13). -/
  idlePoll_range : minHoldUs ≤ idlePollUs ∧ idlePollUs ≤ 65535 := by decide
  /-- TICKS_PER_US ≥ 1 and (2^HOLD_BITS − 1) × TICKS_PER_US ≤ 2^TMR_BITS − 1 (rule R14). -/
  ticks_range : 1 ≤ ticksPerUs ∧ 65535 * ticksPerUs ≤ 4294967295 := by decide
  /-- W1_LOW_US takes the value 5 or 6 (rule R18). -/
  w1Low_values : w1LowUs = 5 ∨ w1LowUs = 6 := by decide
  /-- RD_LOW_US takes the value 5 or 6 (rule R19). -/
  rdLow_values : rdLowUs = 5 ∨ rdLowUs = 6 := by decide
  /-- The hold h of PRESENT(h) is a hold in µs, so it fits the HOLD field (rules R15, R20). -/
  readByteClear_fits : ∀ h ∈ readByteClear, h ≤ 65535 := by decide
  /-- "The parameters must therefore satisfy W1_LOW_US ≥ MIN_HOLD_US, and 70 − W1_LOW_US ≥ MIN_HOLD_US"
  (rule R160). -/
  w1Low_floor : minHoldUs ≤ w1LowUs ∧ minHoldUs ≤ 70 - w1LowUs := by decide
  /-- The floor binds no hold of a read bit, so that its sample is always at 15 µs and "the bit always spans 70 µs"
  (rule R19; log entry 23). DEDUCED: rule R160 states such a constraint for the write-1 bit only. -/
  rdLow_floor : minHoldUs ≤ rdLowUs ∧ minHoldUs ≤ 15 - rdLowUs := by decide
  deriving DecidableEq, Repr

/-! ### The OPEN parameters (rules R13, R14): free values, bounded as the spec bounds them -/

/-- FREE VALUE, no body. IDLE_POLL_US of the standard configuration, less the floor of 5 (rule R13; log entry 1). -/
opaque Config.idlePollOverFloor : Fin 65531

/-- FREE VALUE, no body. TICKS_PER_US of the standard configuration, less 1 (rule R14; log entry 1). -/
opaque Config.ticksOverOne : Fin 65537

/-! ### The draws -/

/-- FREE VALUE, no body. The n-th draw of the level ENV that the bus environment gives the released line, "a free
input, drawn under no law" (rule R143; log entry 3). -/
opaque Config.envDraw : Nat → Bool

/-- FREE VALUE, no body. The n-th draw of the handler entry latency ε in ticks, "a natural number drawn afresh at each
expiry, under no law" (rules R21, R179; log entry 4). -/
opaque Config.latencyDraw : Nat → Nat

/-- The default of every parameter that has one (00_scope.md section 4), and a free value for each OPEN one. -/
def Config.standard : Config where
  cap := 500
  qdisc := .linear
  minHoldUs := 5
  idlePollUs := 5 + Config.idlePollOverFloor.val
  ticksPerUs := 1 + Config.ticksOverOne.val
  w1LowUs := 6
  rdLowUs := 6
  readByteClear := none
  idlePoll_range := by have := Config.idlePollOverFloor.isLt; omega
  ticks_range := by have := Config.ticksOverOne.isLt; omega

end Sys2Proof
end

