-- ==== Sys2Proof/Machine/State.lean ====
section
/-! DEFINITION. The state of TQS as plain data: every element of 10_state.md section 1, the parameters the block was
built with, and the agents around it that rule R9 names (the host's calls and callback bindings, the bus environment's
level, the latency being waited out). -/

namespace Sys2Proof.Machine

/-- LINE_DIR, the direction of the bus pin: "The only two pin states are output low and input" (rules R36, R37,
R144). -/
inductive LineDir where
  /-- 0: input, high impedance; the line is released. -/
  | input
  /-- 1: output; the output value is hardwired to 0, so the line is driven low (rule R37). -/
  | outputLow
  deriving DecidableEq, Repr

/-- The events of the ghost history (rule R43). -/
inductive Event where
  /-- `Dir(d)`: LINE_DIR written with d. -/
  | dir (d : LineDir)
  /-- `Sampled(b)`: Sample returned bit b. -/
  | sampled (b : Bool)
  /-- `Callback(cbid, v)`: Emit delivered the 8-bit value v. -/
  | callback (cbid : Nat) (v : Byte)
  /-- `Armed(us)`: the timer was armed for us µs. -/
  | armed (us : Nat)
  /-- `Executed(w)`: the action word w was executed. -/
  | executed (w : Word)
  /-- `Enqueued(w)`: an ENQUEUE appended w. -/
  | enqueued (w : Word)
  /-- `Dropped(w)`: an ENQUEUE met a full queue. -/
  | dropped (w : Word)
  /-- `Faulted(w, codes)`: an ENQUEUE of an ill-formed word (rule R100; one event with the set of codes). -/
  | faulted (w : Word) (codes : List FaultCode)
  deriving DecidableEq, Repr

/-- A store indexed by naturals, as plain data: (index, content) pairs in one canonical form, indices strictly rising
(`Memory.wf`). The queue store Q is one, with one 32-bit word a slot (rules R31, R63). -/
abbrev Memory (α : Type) := List (Nat × α)

/-- What a host function bound to a callback handle does to TQS, as a finite table: for each value it may be given, the
words it ENQUEUEs in order (rules R48, R114, R127). A value that is not listed makes it ENQUEUE nothing. -/
abbrev HostFn := List (Byte × List Word)

/-- One move of an agent outside the block, waiting its turn (rules R9, R71). -/
inductive Input where
  /-- The host's main program performs ENQUEUE(w) (rule R100). -/
  | enqueue (w : Word)
  /-- The host binds a function to a callback handle (rules R48, R202). -/
  | bind (cbid : Nat) (fn : HostFn)
  /-- The bus environment changes the level it gives the released line (rules R71, R143). -/
  | env (level : Bool)
  /-- The block is reset (rules R200, R208). -/
  | reset
  /-- No agent outside the block moves: this step is the block's own (an EXPIRY if one is due, else a tick). -/
  | pass
  deriving DecidableEq, Repr

/-- The whole state of the machine. -/
structure State where
  /-- The instantiation parameters, "fixed for the life of a model" (rule R46). No step changes them. -/
  cfg : Config
  /-- Q, the queue store; an index that is not listed holds no value that a rule reads (rules R31, R49, R54). -/
  q : Memory Word
  /-- RD, the head index, which plays the role of the program counter (rules R23, R32, R35). -/
  rd : Nat
  /-- WR, the tail index (rule R32). -/
  wr : Nat
  /-- CNT, the live-entry count (rule R32). -/
  cnt : Nat
  /-- SR, the 8-bit shift register (rule R34). -/
  sr : Byte
  /-- LINE_DIR (rule R36). -/
  lineDir : LineDir
  /-- TMR_COUNT, the 32-bit down-counter in ticks (rule R38). -/
  tmrCount : BitVec 32
  /-- TMR_ARMED (rule R39). -/
  tmrArmed : Bool
  /-- TMR_PEND (rule R40). -/
  tmrPend : Bool
  /-- FAULT, the 2-bit sticky record of ill-formed ENQUEUEs; recording a fault stops nothing (rules R41, R173). -/
  fault : BitVec 2
  /-- DROPS, the ghost count of dropped ENQUEUEs (rule R42). -/
  drops : Nat
  /-- EVENTS, the ghost history of `(t, e)` records, oldest first (rule R43). -/
  events : List (Nat × Event)
  /-- t, the tick count since reset (rule R25). -/
  now : Nat
  /-- The ticks of the latency draw ε that are still to pass before the pending EXPIRY is taken (rule R179). -/
  lat : Nat
  /-- ENV(t), the level the bus environment gives the released line now (rule R143). -/
  env : Bool
  /-- THE MODEL'S OWN: how many draws have been made; the next one is the free value at this index (log entry 2). -/
  draws : Nat
  /-- THE HOST'S: the function bound to each callback handle (rule R48). -/
  bindings : Memory HostFn
  /-- THE MODEL'S OWN: the moves of the agents outside the block, next one first; any list of them is an interleaving
  (rule R71; log entry 5). -/
  inputs : List Input
  deriving DecidableEq, Repr

/-- Why a step stops with a fault. Neither is a fault of the spec (those are recorded in FAULT and stop nothing, rule
R173); neither is reached from a state that meets the invariant `Inv` of Safety.lean. -/
inductive Fault where
  /-- Raised by ENQUEUE and by EXPIRY when the slot index they use is not below CAP: Q has no such slot (rule R60).
  Safe: the model stops. -/
  | slotOutOfRange (index : Nat)
  /-- Raised by EXPIRY when the head slot was never written: its content is unspecified and "is never read" (rules
  R49, R54). Safe: the model stops. -/
  | unwrittenSlot (index : Nat)
  deriving DecidableEq, Repr

/-- Why a step refuses. -/
inductive Refusal where
  /-- Raised by an arm of `exec` whose instruction has no meaning yet. Safe: the model stops. -/
  | notModelled (mnemonic : String)
  /-- Raised by EXPIRY when the head slot holds a reserved word: "Such a word never reaches EXPIRY" (rules R88, R107),
  so no rule gives it a meaning there. Safe: the model stops. -/
  | reservedHeadWord (w : Word)
  deriving DecidableEq, Repr

/-- The outcome of one step of this machine. -/
abbrev Result := Host.Outcome State Fault Refusal

/-- The block of configuration `c` at the end of reset: rules R49 to R53 give every element of it, rule R201 its armed
timer. The level of the bus is drawn; nothing is bound and no agent outside the block has a move waiting. -/
def State.resetWith (c : Config) : State where
  cfg := c
  q := []
  rd := 0
  wr := 0
  cnt := 0
  sr := 0#8
  lineDir := .input
  tmrCount := BitVec.ofNat 32 (c.idlePollUs * c.ticksPerUs)
  tmrArmed := true
  tmrPend := false
  fault := 0#2
  drops := 0
  events := []
  now := 0
  lat := 0
  env := Config.envDraw 0
  draws := 1
  bindings := []
  inputs := []

/-- The machine right after reset, with the spec's default parameters and a free value for each OPEN one. -/
def State.reset : State := State.resetWith Config.standard

end Sys2Proof.Machine
end

