-- ==== Sys2Proof/Machine/Flags.lean ====
section
/-! DEFINITION. The conditions derived from the queue indices (rule R33) and the FAULT record (rules R41, R170). TQS has
no condition codes, status flags or predicates (rule R45), so there is no flag computation beside these. -/

namespace Sys2Proof.Machine

/-- EMPTY ⇔ CNT = 0 (rule R33). -/
def isEmpty (s : State) : Bool := decide (s.cnt = 0)

/-- FULL ⇔ WR = CAP under LINEAR, CNT = CAP under RING (rule R33). -/
def isFull (s : State) : Bool :=
  match s.cfg.qdisc with
  | .linear => decide (s.wr = s.cfg.cap)
  | .ring => decide (s.cnt = s.cfg.cap)

/-- The FAULT bit of a fault code: bit 0 is RSVD_KIND, bit 1 is RSVD_BITS (rule R41). -/
def FaultCode.bit : FaultCode → BitVec 2
  | .rsvdKind => 1#2
  | .rsvdBits => 2#2

/-- `raise Fault(code)`: FAULT[code] <- 1, "and changes nothing else" (rule R170). -/
def raiseFault (c : FaultCode) (s : State) : State := { s with fault := s.fault ||| FaultCode.bit c }

/-- `for c in codes: raise Fault(c)` (rule R100); every applicable bit is set (rule R180). -/
def raiseFaults : List FaultCode → State → State
  | [], s => s
  | c :: cs, s => raiseFaults cs (raiseFault c s)

end Sys2Proof.Machine
end

