-- ==== Sys2Proof/Machine/Memory.lean ====
section
/-! DEFINITION. The one read and the one write of an indexed store (MemRead and MemWrite of rule R24), and the canonical
form every write keeps. An index that is not listed reads as no value at all. -/

namespace Sys2Proof.Machine

/-- The canonical form: indices strictly rising, so that equal stores are equal lists. -/
abbrev Memory.wf {α : Type} (m : Memory α) : Prop := m.Pairwise (fun a b => a.1 < b.1)

/-- MemRead: the content of slot i; `none` where nothing was written (rules R24, R49). -/
def Memory.read {α : Type} : Memory α → Nat → Option α
  | [], _ => none
  | (j, x) :: rest, i => if j = i then some x else Memory.read rest i

/-- MemWrite: the store with v in slot i (rule R24). -/
def Memory.write {α : Type} : Memory α → Nat → α → Memory α
  | [], i, v => [(i, v)]
  | (j, x) :: rest, i, v =>
    if i < j then (i, v) :: (j, x) :: rest
    else if i = j then (i, v) :: rest
    else (j, x) :: Memory.write rest i v

/-- The words a host function ENQUEUEs when it is given v (rules R48, R114). -/
def HostFn.wordsFor : HostFn → Byte → List Word
  | [], _ => []
  | (u, ws) :: rest, v => if u = v then ws else HostFn.wordsFor rest v

/-- The words the host ENQUEUEs when Emit delivers v to handle n: none if nothing is bound to n (rule R127). -/
def hostWords (b : Memory HostFn) (n : Nat) (v : Byte) : List Word :=
  match Memory.read b n with
  | none => []
  | some fn => HostFn.wordsFor fn v

end Sys2Proof.Machine
end

