-- ==== Sys2Proof/Machine/Operands.lean ====
section
/-! DEFINITION. What the operands of an action become: the hold turns into an armed duration and into ticks (rules R83,
R105, R181), the callback into a handle and an 8-bit value (rules R84, R85, R122). The queue has one operand form, the
slot that an index names (rules R32, R35, R61). -/

namespace Sys2Proof.Machine

/-- The duration armed for a hold: `max(hold, MIN_HOLD_US)` µs (rule R105). -/
def armedUs (c : Config) (hold : Nat) : Nat := max hold c.minHoldUs

/-- A duration in µs as ticks (rules R25, R181). -/
def ticksOf (c : Config) (us : Nat) : Nat := us * c.ticksPerUs

/-- zext_8(b), the value a SampleBit's callback receives (rule R122). -/
def zextBit (b : Bool) : Byte := (BitVec.ofBool b).setWidth 8

/-- `{b, SR[7:1]}`: the new bit enters at the top, the old bit 0 is lost (rules R34, R122). -/
def shiftIn (b : Bool) (sr : Byte) : Byte := BitVec.ofBool b ++ sr.extractLsb' 1 7

/-- The slot after slot i, for RD and WR alike: i + 1 under LINEAR, (i + 1) mod CAP under RING (rules R35, R100,
R103). -/
def nextSlot (c : Config) (i : Nat) : Nat :=
  match c.qdisc with
  | .linear => i + 1
  | .ring => (i + 1) % c.cap

/-- The slot of the k-th live entry, in FIFO order (rule R32). -/
def slotAt (s : State) (k : Nat) : Nat :=
  match s.cfg.qdisc with
  | .linear => s.rd + k
  | .ring => (s.rd + k) % s.cfg.cap

end Sys2Proof.Machine
end

