-- ==== Sys2Proof/Machine/Ops.lean ====
section
/-! DEFINITION. The shared operations: the ghost history, the three line primitives (rules R140 to R142), the timer
(rules R178 to R182), the queue's two accesses (rules R100, R103, R106), the callback (rule R127), reset (rule R200),
and the taking of TQS's only interrupt: its entry saves nothing and changes no mode (rule R185), acknowledges, re-arms
and advances (rule R103), and the return from it restores nothing (rule R186), so the meaning that runs last ends the
step. -/

namespace Sys2Proof.Machine

/-- `EVENTS += e`: append `(t, e)` to the ghost history (rule R43; 40_scheduler.md, head). -/
def log (e : Event) (s : State) : State := { s with events := s.events ++ [(s.now, e)] }

/-- Go on with the next state, or stop as the first part stopped. -/
def andThen (r : Result) (f : State → Result) : Result :=
  match r with
  | .next s => f s
  | .fault e => .fault e
  | .refused e => .refused e

/-! ### The bus line -/

/-- DriveLow(): LINE_DIR <- 1 (rule R140). -/
def driveLow (s : State) : State := log (.dir .outputLow) { s with lineDir := .outputLow }

/-- Release(): LINE_DIR <- 0 (rule R141). -/
def release (s : State) : State := log (.dir .input) { s with lineDir := .input }

/-- LEVEL(t): 0 while the block drives the line, else ENV(t) (rule R143). -/
def level (s : State) : Bool :=
  match s.lineDir with
  | .outputLow => false
  | .input => s.env

/-- Sample(): the bit it returns is `level s`; this is the state after it, which differs in EVENTS only (rules R68,
R142). -/
def sample (s : State) : State := log (.sampled (level s)) s

/-! ### The shift register -/

/-- SR <- v (rules R122, R125). -/
def setShiftRegister (v : Byte) (s : State) : State := { s with sr := v }

/-! ### The timer -/

/-- Arm(us) (rule R181). It replaces a count in progress and cancels no pending expiry (rule R183). -/
def arm (us : Nat) (s : State) : State :=
  log (.armed us) { s with tmrCount := BitVec.ofNat 32 (ticksOf s.cfg us), tmrArmed := true }

/-- The acknowledge: TMR_PEND <- 0 (rule R178). -/
def acknowledge (s : State) : State := { s with tmrPend := false }

/-- The expiry: TMR_ARMED <- 0 and TMR_PEND <- 1 (rule R182), with a fresh draw of ε (rule R179). -/
def expire (s : State) : State :=
  { s with tmrArmed := false, tmrPend := true, lat := Config.latencyDraw s.draws }

/-- One count of the timer: it counts only while it is armed, and expires on reaching 0 (rule R182). -/
def countDown (s : State) : State :=
  if s.tmrArmed then
    if s.tmrCount - 1#32 = 0#32 then expire { s with tmrCount := s.tmrCount - 1#32 }
    else { s with tmrCount := s.tmrCount - 1#32 }
  else s

/-- One tick passes: the time, the latency being waited out (rule R179), the timer (rule R182), and the level of the
bus, which at the new time is a fresh draw (rule R143). -/
def tick (s : State) : State :=
  let s' := countDown { s with now := s.now + 1, lat := s.lat - 1 }
  { s' with env := Config.envDraw s.draws, draws := s.draws + 1 }

/-! ### The queue -/

/-- The append: MemWrite(Q, WR, w), the tail moves on, CNT <- CNT + 1 (rule R100). -/
def append (w : Word) (s : State) : State :=
  log (.enqueued w)
    { s with q := Memory.write s.q s.wr w, wr := nextSlot s.cfg s.wr, cnt := s.cnt + 1 }

/-- ENQUEUE(w) (rule R100): an ill-formed word is faulted and a word that meets a full queue is dropped, and neither is
appended; Q has no slot at an index of CAP or above (rule R60). -/
def enqueue (w : Word) (s : State) : Result :=
  match rsvdCodes w with
  | c :: cs => .next (log (.faulted w (c :: cs)) (raiseFaults (c :: cs) s))
  | [] =>
    if isFull s then .next (log (.dropped w) { s with drops := s.drops + 1 })
    else if s.wr < s.cfg.cap then .next (append w s)
    else .fault (.slotOutOfRange s.wr)

/-- Several ENQUEUEs, one after the other (rules R114, R150). -/
def enqueueAll : List Word → State → Result
  | [], s => .next s
  | w :: ws, s => andThen (enqueue w s) (enqueueAll ws)

/-- RD after the advance: the next slot, but 0 under LINEAR when the removed entry was the last live one, "RD = WR after
the increment" (rules R35, R103, R106). -/
def headAfterAdvance (s : State) : Nat :=
  match s.cfg.qdisc with
  | .linear => if s.rd + 1 = s.wr then 0 else s.rd + 1
  | .ring => (s.rd + 1) % s.cfg.cap

/-- WR after the advance: it returns to 0 with RD, and otherwise stays (rules R103, R106). -/
def tailAfterAdvance (s : State) : Nat :=
  match s.cfg.qdisc with
  | .linear => if s.rd + 1 = s.wr then 0 else s.wr
  | .ring => s.wr

/-- The advance: the head entry leaves the live window (rules R103, R106). -/
def advance (s : State) : State :=
  { s with cnt := s.cnt - 1, rd := headAfterAdvance s, wr := tailAfterAdvance s }

/-- w <- MemRead(Q, RD), given to the rest of the handler (rule R103). -/
def withHead (s : State) (f : Word → Result) : Result :=
  if s.rd < s.cfg.cap then
    match Memory.read s.q s.rd with
    | some w => f w
    | none => .fault (.unwrittenSlot s.rd)
  else .fault (.slotOutOfRange s.rd)

/-- What EXPIRY does with a head word before its effect, in the order of rules R103 and R107: re-arm for
max(hold, MIN_HOLD_US), advance, record. -/
def beginSlot (w : Word) (s : State) : State :=
  log (.executed w) (advance (arm (armedUs s.cfg (holdField w)) s))

/-! ### The callback -/

/-- Emit(cbid, v): record the delivery and run the function the host bound to cbid, inside the step (rules R127,
R114). -/
def emit (cbid : Nat) (v : Byte) (s : State) : Result :=
  enqueueAll (hostWords s.bindings cbid v) (log (.callback cbid v) s)

/-- `if cbv = 1 then Emit(cbid, v)` (rules R122, R123). -/
def emitTo (cb : Option Nat) (v : Byte) (s : State) : Result :=
  match cb with
  | none => .next s
  | some n => emit n v s

/-! ### Reset, and placing a word to be fetched -/

/-- Reset of the running block: every element of it to its value (rule R200). The agents around it go on: the host keeps
its bindings (rule R48) and its waiting moves, the bus its level. -/
def resetBlock (s : State) : State :=
  { State.resetWith s.cfg with
    env := s.env, draws := s.draws, bindings := s.bindings, inputs := s.inputs }

/-- The state in which the very next step is the EXPIRY that fetches w: w stands in the head slot of a queue that is not
empty, and the timer has expired with no latency left. A waiting move of an agent outside the block is put off by one
step. -/
def placeHead (w : Word) (s : State) : State :=
  let rd := if s.rd < s.cfg.cap then s.rd else 0
  { s with
    q := Memory.write s.q rd w
    rd := rd
    wr := if s.cnt = 0 then nextSlot s.cfg rd else s.wr
    cnt := if s.cnt = 0 then 1 else s.cnt
    tmrCount := 0#32
    tmrArmed := false
    tmrPend := true
    lat := 0
    inputs := match s.inputs with
      | [] => []
      | i :: rest => .pass :: i :: rest }

end Sys2Proof.Machine
end

