-- ==== Sys2Proof/Machine/Line.lean ====
section
/-! DEFINITION. The effects of the line family (41_actions.md section 1): BusLow, ReleaseBus and WaitForBusHigh. The hold
has armed the slot before the effect runs (rule R103), and a callback on these kinds is not invoked (rule R126), so
neither operand appears in an effect. -/

namespace Sys2Proof.Machine

/-- BusLow: DriveLow() (rule R120). -/
def execBusLow (_hold : Nat) (_cb : Option Nat) (s : State) : Result := .next (driveLow s)

/-- ReleaseBus: Release() (rule R121). -/
def execReleaseBus (_hold : Nat) (_cb : Option Nat) (s : State) : Result := .next (release s)

/-- WaitForBusHigh: skip; "a placeholder slot", the no-op the source documents (rule R124). -/
def execWaitForBusHigh (_hold : Nat) (_cb : Option Nat) (s : State) : Result := .next s

end Sys2Proof.Machine
end

