-- ==== Sys2Proof/Machine/ShiftRegister.lean ====
section
/-! DEFINITION. The effects of the shift register family (41_actions.md section 2): SampleBit, TransferByte and
ClearShiftRegister. The hold has armed the slot before the effect runs (rule R103). -/

namespace Sys2Proof.Machine

/-- SampleBit: sample the line now, shift the bit into SR, and call back with the bit, not with SR (rule R122). -/
def execSampleBit (_hold : Nat) (cb : Option Nat) (s : State) : Result :=
  emitTo cb (zextBit (level s)) (setShiftRegister (shiftIn (level s) s.sr) (sample s))

/-- TransferByte: call back with SR, which is read and not modified; no effect without a callback (rule R123). -/
def execTransferByte (_hold : Nat) (cb : Option Nat) (s : State) : Result := emitTo cb s.sr s

/-- ClearShiftRegister: SR <- 0x00; a callback is not invoked (rules R125, R126). -/
def execClearShiftRegister (_hold : Nat) (_cb : Option Nat) (s : State) : Result :=
  .next (setShiftRegister 0#8 s)

end Sys2Proof.Machine
end

