-- ==== Sys2Proof/Machine/Dispatch.lean ====
section
/-! DEFINITION. Execute(w): the dispatch on KIND, one arm for each action kind (rule R107). -/

namespace Sys2Proof.Machine

def exec (i : Instr) (s : State) : Host.Outcome State Fault Refusal :=
  match i with
  | .busLow hold cb => Sys2Proof.Machine.execBusLow hold cb s
  | .releaseBus hold cb => Sys2Proof.Machine.execReleaseBus hold cb s
  | .sampleBit hold cb => Sys2Proof.Machine.execSampleBit hold cb s
  | .transferByte hold cb => Sys2Proof.Machine.execTransferByte hold cb s
  | .waitForBusHigh hold cb => Sys2Proof.Machine.execWaitForBusHigh hold cb s
  | .clearShiftRegister hold cb => Sys2Proof.Machine.execClearShiftRegister hold cb s

end Sys2Proof.Machine
end

