-- ==== Sys2Proof/Machine/Handler.lean ====
section
/-! DEFINITION. The steps of each agent (rule R71): the EXPIRY of the scheduler handler (rule R103), the choice between
it and a tick of the timer (rules R179, R182), and the moves of the agents outside the block. -/

namespace Sys2Proof.Machine

/-- What EXPIRY does with the head word: re-arm, advance and record, then the effect of the action it stands for (rules
R103, R107). -/
def runHead (w : Word) (s : State) : Result :=
  match decode w with
  | .action i => exec i (beginSlot w s)
  | .reserved _ => .refused (.reservedHeadWord w)

/-- EXPIRY: acknowledge; then the idle poll if the queue is empty (rule R104), else the head action (rule R103). -/
def expiry (s : State) : Result :=
  if isEmpty s then .next (arm s.cfg.idlePollUs (acknowledge s))
  else withHead s (fun w => runHead w (acknowledge s))

/-- EXPIRY is due: it is pending and its latency draw has passed (rules R103, R179). -/
def expiryDue (s : State) : Bool := s.tmrPend && decide (s.lat = 0)

/-- The block's own next step: the EXPIRY if one is due, else one tick. -/
def blockStep (s : State) : Result :=
  if expiryDue s then expiry s else .next (tick s)

/-- One move of an agent outside the block; `pass` leaves the step to the block. -/
def deliver (i : Input) (s : State) : Result :=
  match i with
  | .enqueue w => enqueue w s
  | .bind n fn => .next { s with bindings := Memory.write s.bindings n fn }
  | .env b => .next { s with env := b }
  | .reset => .next (resetBlock s)
  | .pass => blockStep s

end Sys2Proof.Machine
end

