-- ==== Sys2Proof/Machine/Step.lean ====
section
/-! DEFINITION. One step of the machine. All steps of all agents are totally ordered (rule R71): the waiting move of an
agent outside the block goes first, in the order the list gives, and with none waiting the block moves. -/

namespace Sys2Proof.Machine

/-- One step. -/
def step (s : State) : Host.Outcome State Fault Refusal :=
  match s.inputs with
  | [] => blockStep s
  | i :: rest => deliver i { s with inputs := rest }

/-- s with the instruction of an opcode-table row placed where the next step fetches: in the head slot, with the EXPIRY
due (log entry 6). -/
def State.withFetchWord (s : State) (nbits w : Nat) : State :=
  placeHead (BitVec.ofNat 32 (w % 2 ^ nbits)) s

end Sys2Proof.Machine
end

