-- ==== Sys2Proof/Machine/Assembler.lean ====
section
/-! DEFINITION. The assembler syntax (rules R92, R93): one action a line, `Kind(hold)` or `Kind(hold, cb=n)`; a line that
begins with `;` is a comment; `.word 0x........` passes a raw word through. Lines are lists of characters. What the
rules leave open (spaces at the ends of a line, a comment after an action, the order of the refusals) is log entry 12. -/

namespace Sys2Proof.Machine

/-- Why the assembler refuses a line (rule R93). -/
inductive AsmRefusal where
  /-- A hold outside 0 to 65535. -/
  | holdRange
  /-- A handle outside 0 to 255. -/
  | handleRange
  /-- A mnemonic not listed in rule R92. -/
  | unknownMnemonic
  /-- No line of the syntax of rules R92 and R93. -/
  | malformed
  deriving DecidableEq, Repr

/-- What a line assembles to. -/
inductive AsmLine where
  /-- A comment or an empty line: no word. -/
  | comment
  /-- One word for ENQUEUE. -/
  | word (w : Word)
  /-- The line is refused. -/
  | refused (r : AsmRefusal)
  deriving DecidableEq, Repr

/-- The six mnemonics, "exactly as the source spells them" (rule R92), with their kind codes. -/
def mnemonicKind (name : List Char) : Option Nat :=
  if name = ['B', 'u', 's', 'L', 'o', 'w'] then some 0
  else if name = ['R', 'e', 'l', 'e', 'a', 's', 'e', 'B', 'u', 's'] then some 1
  else if name = ['S', 'a', 'm', 'p', 'l', 'e', 'B', 'i', 't'] then some 2
  else if name = ['T', 'r', 'a', 'n', 's', 'f', 'e', 'r', 'B', 'y', 't', 'e'] then some 3
  else if name = ['W', 'a', 'i', 't', 'F', 'o', 'r', 'B', 'u', 's', 'H', 'i', 'g', 'h'] then some 4
  else if name = ['C', 'l', 'e', 'a', 'r', 'S', 'h', 'i', 'f', 't', 'R', 'e', 'g', 'i', 's', 't', 'e', 'r'] then some 5
  else none

/-- The value of a string of decimal digits. -/
def decimalValue (ds : List Char) : Nat := ds.foldl (fun n d => 10 * n + (d.toNat - 48)) 0

/-- A decimal integer: at least one digit and nothing else. -/
def decimal (cs : List Char) : Option Nat :=
  if cs ≠ [] ∧ cs.all Char.isDigit = true then some (decimalValue cs) else none

/-- The value of a hexadecimal digit. -/
def hexDigit (c : Char) : Option Nat :=
  if c.isDigit then some (c.toNat - 48)
  else if 97 ≤ c.toNat ∧ c.toNat ≤ 102 then some (c.toNat - 87)
  else if 65 ≤ c.toNat ∧ c.toNat ≤ 70 then some (c.toNat - 55)
  else none

/-- The value of a string of hexadecimal digits, read on from n. -/
def hexValue : List Char → Nat → Option Nat
  | [], n => some n
  | c :: cs, n =>
    match hexDigit c with
    | some d => hexValue cs (16 * n + d)
    | none => none

/-- Enc of an action line's parts, with the refusals of rule R93. -/
def assembleAction (name : List Char) (hold : Nat) (cb : Option Nat) : AsmLine :=
  match mnemonicKind name with
  | none => .refused .unknownMnemonic
  | some k =>
    match ofKind k hold cb with
    | none => .refused .unknownMnemonic
    | some i =>
      if i.holdFits = false then .refused .holdRange
      else if i.handleFits = false then .refused .handleRange
      else .word (encode i)

/-- The operands of an action line, after `Kind(`: `hold)` or `hold, cb=n)`. -/
def assembleOperands (name rest : List Char) : AsmLine :=
  let after := rest.dropWhile Char.isDigit
  match decimal (rest.takeWhile Char.isDigit) with
  | none => .refused .malformed
  | some hold =>
    match after with
    | [')'] => assembleAction name hold none
    | ',' :: ' ' :: 'c' :: 'b' :: '=' :: tail =>
      match decimal (tail.takeWhile Char.isDigit) with
      | none => .refused .malformed
      | some n =>
        if tail.dropWhile Char.isDigit = [')'] then assembleAction name hold (some n)
        else .refused .malformed
    | _ => .refused .malformed

/-- `.word 0x........`, eight hexadecimal digits, "which the assembler passes through unchanged" (rule R93). -/
def assembleRaw (digits : List Char) : AsmLine :=
  if digits.length = 8 then
    match hexValue digits 0 with
    | some v => .word (BitVec.ofNat 32 v)
    | none => .refused .malformed
  else .refused .malformed

/-- A line without its comment and without spaces at its ends. -/
def stripLine (cs : List Char) : List Char :=
  (((cs.takeWhile (· ≠ ';')).dropWhile (· = ' ')).reverse.dropWhile (· = ' ')).reverse

/-- One stripped line. -/
def assembleStripped (cs : List Char) : AsmLine :=
  match cs with
  | [] => .comment
  | '.' :: 'w' :: 'o' :: 'r' :: 'd' :: ' ' :: '0' :: 'x' :: digits => assembleRaw digits
  | c :: rest =>
    match (c :: rest).dropWhile (· ≠ '(') with
    | '(' :: operands => assembleOperands ((c :: rest).takeWhile (· ≠ '(')) operands
    | _ => .refused .malformed

/-- One line (rules R92, R93). -/
def assembleLine (cs : List Char) : AsmLine := assembleStripped (stripLine cs)

/-- A program, "a list of actions, one per line, in ENQUEUE order" (rule R92): its words, or the refusal of its first
refused line. -/
def assemble : List (List Char) → Except AsmRefusal (List Word)
  | [] => .ok []
  | l :: ls =>
    match assembleLine l, assemble ls with
    | .refused r, _ => .error r
    | _, .error r => .error r
    | .comment, .ok ws => .ok ws
    | .word w, .ok ws => .ok (w :: ws)

end Sys2Proof.Machine
end

