-- ==== Sys2Proof/Machine/Protocol.lean ====
section
/-! DEFINITION. The pseudo-instructions (44_protocol_sequences.md): each is a fixed list of actions that the host
ENQUEUEs in order (rules R6, R94, R150). They add no state and no step to the block. -/

namespace Sys2Proof.Machine

/-- The pseudo-instructions of rule R94. -/
inductive Pseudo where
  /-- `RESET(cb=n)`, or `RESET` without a callback (rule R155). -/
  | reset (cb : Option Nat)
  /-- `WRITE_BIT_0` (rule R151). -/
  | writeBit0
  /-- `WRITE_BIT_1` (rule R152). -/
  | writeBit1
  /-- `WRITE_BIT(b)` (rule R153). -/
  | writeBit (b : Bool)
  /-- `READ_BIT` or `READ_BIT(cb=n)` (rule R154). -/
  | readBit (cb : Option Nat)
  /-- `WRITE_BYTE(v)` (rule R156). -/
  | writeByte (v : Byte)
  /-- `READ_BYTE(cb=n)` (rule R157). -/
  | readByte (cb : Nat)
  /-- `WAIT_RELEASE(h)` (rule R158). -/
  | waitRelease (hold : Nat)
  deriving DecidableEq, Repr

/-- WRITE_BIT_0: BusLow(60), ReleaseBus(10) (rule R151). -/
def writeBit0Actions : List Instr := [.busLow 60 none, .releaseBus 10 none]

/-- WRITE_BIT_1: BusLow(W1_LOW_US), ReleaseBus(70 − W1_LOW_US) (rule R152). -/
def writeBit1Actions (c : Config) : List Instr :=
  [.busLow c.w1LowUs none, .releaseBus (70 - c.w1LowUs) none]

/-- WRITE_BIT(b) (rule R153). -/
def writeBitActions (c : Config) (b : Bool) : List Instr :=
  if b then writeBit1Actions c else writeBit0Actions

/-- READ_BIT: BusLow(RD_LOW_US), ReleaseBus(15 − RD_LOW_US), SampleBit(55) (rule R154). -/
def readBitActions (c : Config) (cb : Option Nat) : List Instr :=
  [.busLow c.rdLowUs none, .releaseBus (15 - c.rdLowUs) none, .sampleBit 55 cb]

/-- The prefix of READ_BYTE: ClearShiftRegister(h) when READ_BYTE_CLEAR = PRESENT(h) (rules R20, R157). -/
def readByteClearActions (c : Config) : List Instr :=
  match c.readByteClear with
  | none => []
  | some h => [.clearShiftRegister h none]

/-- The expansion of a pseudo-instruction into actions (rules R151 to R158). A byte goes least-significant bit first
(rules R64, R156, R157). -/
def Pseudo.expand (c : Config) : Pseudo → List Instr
  | .reset cb => [.busLow 480 none, .releaseBus 70 none, .sampleBit 410 cb]
  | .writeBit0 => writeBit0Actions
  | .writeBit1 => writeBit1Actions c
  | .writeBit b => writeBitActions c b
  | .readBit cb => readBitActions c cb
  | .writeByte v => (List.range 8).flatMap (fun i => writeBitActions c (v.getLsbD i))
  | .readByte cb =>
    readByteClearActions c ++ (List.range 8).flatMap (fun _ => readBitActions c none) ++
      [.transferByte 0 (some cb)]
  | .waitRelease h => [.waitForBusHigh h none]

/-- The words the host ENQUEUEs for a pseudo-instruction, in order (rule R150). -/
def Pseudo.words (c : Config) (p : Pseudo) : List Word := (p.expand c).map encode

/-- The host performing a pseudo-instruction from its main program: one ENQUEUE a word, in order, not atomic with
respect to EXPIRY (rule R150). -/
def Pseudo.inputs (c : Config) (p : Pseudo) : List Input := (p.words c).map .enqueue

/-- The armed time of a list of actions in µs: the sum of max(hold, MIN_HOLD_US) (rule R159). -/
def armedTime (c : Config) (is : List Instr) : Nat := (is.map (fun i => armedUs c i.hold)).sum

end Sys2Proof.Machine
end

