-- ==== Sys2Proof/Safety.lean ====
section
/-! DEFINITION. What claims are stated in terms of: the live entries and the words the history names, the invariant of
the block, the account the ghost history keeps of the state, and runs of several slots. -/

namespace Sys2Proof.Machine

/-! ### The queue's contents and the words of the history -/

/-- The word of the k-th live entry, in FIFO order (rule R32). -/
def liveWord (s : State) (k : Nat) : Option Word := Memory.read s.q (slotAt s k)

/-- The live entries, in FIFO order (rule R32). -/
def liveWords (s : State) : List Word := (List.range s.cnt).filterMap (liveWord s)

/-- The words ENQUEUE accepted, in order. -/
def acceptedWords (es : List (Nat × Event)) : List Word :=
  es.filterMap (fun e => match e.2 with | .enqueued w => some w | _ => none)

/-- The words EXPIRY executed, in order. -/
def executedWords (es : List (Nat × Event)) : List Word :=
  es.filterMap (fun e => match e.2 with | .executed w => some w | _ => none)

/-- The words ENQUEUE dropped, in order. -/
def droppedWords (es : List (Nat × Event)) : List Word :=
  es.filterMap (fun e => match e.2 with | .dropped w => some w | _ => none)

/-- The bits Sample returned, in order. -/
def sampledBits (es : List (Nat × Event)) : List Bool :=
  es.filterMap (fun e => match e.2 with | .sampled b => some b | _ => none)

/-- The callbacks Emit delivered, in order. -/
def callbacks (es : List (Nat × Event)) : List (Nat × Byte) :=
  es.filterMap (fun e => match e.2 with | .callback n v => some (n, v) | _ => none)

/-- A history names the fault code c. -/
def faultNamed (c : FaultCode) (es : List (Nat × Event)) : Bool :=
  es.any (fun e => match e.2 with | .faulted _ cs => decide (c ∈ cs) | _ => false)

/-! ### The invariant -/

/-- The relation of the indices that rule R32 states, for each discipline. -/
def indicesOk (s : State) : Prop :=
  match s.cfg.qdisc with
  | .linear => s.rd + s.cnt = s.wr ∧ s.wr ≤ s.cfg.cap ∧ (s.cnt = 0 → s.rd = 0)
  | .ring => s.rd < s.cfg.cap ∧ s.cnt ≤ s.cfg.cap ∧ s.wr = (s.rd + s.cnt) % s.cfg.cap

/-- The invariant of the block: the queue store keeps its form and its bounds, the indices are related as rule R32 says,
every live slot holds a well-formed word (rules R75, R103), and exactly one of 'the timer counts' and 'an expiry is
pending' holds (rules R180, R182, R183). -/
structure Inv (s : State) : Prop where
  /-- Q is in canonical form. -/
  store : Memory.wf s.q
  /-- Q lists no slot at CAP or above (rule R31). -/
  bounded : ∀ e ∈ s.q, e.1 < s.cfg.cap
  /-- Rule R32. -/
  indices : indicesOk s
  /-- "Every live word is well-formed" (rule R103). -/
  live : ∀ k < s.cnt, ∃ w, liveWord s k = some w ∧ wfWord w = true
  /-- "the timer is idle from expiry until the handler re-arms it" (rule R180). -/
  oneShot : s.tmrArmed = !s.tmrPend
  /-- "a zero-length count cannot occur" (rule R181). -/
  counting : s.tmrArmed = true → s.tmrCount ≠ 0#32
  /-- The count stays at 0 from the expiry on (rule R182). -/
  expired : s.tmrPend = true → s.tmrCount = 0#32
  /-- The table of callback bindings is in canonical form. -/
  bound : Memory.wf s.bindings

/-- A good state: the invariant holds and no fault is recorded, the premise claims about TQS take (rules R41, R170,
R173). -/
def Good (s : State) : Prop := Inv s ∧ s.fault = 0#2

/-! ### The account of the ghost history -/

/-- The direction of the line as the history leaves it: the last `Dir`, or released if there is none. -/
def replayLine (es : List (Nat × Event)) : LineDir :=
  es.foldl (fun d e => match e.2 with | .dir d' => d' | _ => d) .input

/-- The shift register as the history leaves it: each sampled bit shifted in, and zeroed by each ClearShiftRegister
executed (rules R122, R125), from its reset value. -/
def replayShift (es : List (Nat × Event)) : Byte :=
  es.foldl (fun v e => match e.2 with
    | .sampled b => shiftIn b v
    | .executed w => if kindField w = 5 then 0#8 else v
    | _ => v) 0#8

/-- The ghost history accounts for the state it stands beside (rules R41, R42, R43). -/
structure History (s : State) : Prop where
  /-- DROPS counts the `Dropped` events (rules R42, R102). -/
  drops : s.drops = (droppedWords s.events).length
  /-- FAULT[0] is set exactly if some `Faulted` event names RSVD_KIND (rules R170, R171). -/
  kindBit : s.fault.getLsbD 0 = faultNamed .rsvdKind s.events
  /-- FAULT[1] is set exactly if some `Faulted` event names RSVD_BITS (rules R170, R172). -/
  bitsBit : s.fault.getLsbD 1 = faultNamed .rsvdBits s.events
  /-- LINE_DIR is as the last `Dir` event left it (rules R140, R141). -/
  line : s.lineDir = replayLine s.events
  /-- SR is what the samples and clears of the history make of it (rules R122, R125). -/
  shift : s.sr = replayShift s.events
  /-- Events are recorded in the order of time, none later than now (rule R43). -/
  times : s.events.Pairwise (fun a b => a.1 ≤ b.1) ∧ ∀ e ∈ s.events, e.1 ≤ s.now

/-- The accepted words are the executed ones followed by the live ones, in order (rule R101). -/
def InOrder (s : State) : Prop := acceptedWords s.events = executedWords s.events ++ liveWords s

/-! ### What a step is -/

/-- No agent outside the block moves in the next step: it is the block's own. -/
def blockMoves (s : State) : Bool :=
  match s.inputs with
  | [] => true
  | .pass :: _ => true
  | _ => false

/-- The next step resets the block. -/
def resetMoves (s : State) : Bool :=
  match s.inputs with
  | .reset :: _ => true
  | _ => false

/-- The next step is an EXPIRY that finds the queue non-empty (rule R103). -/
def slotBegins (s : State) : Bool := blockMoves s && expiryDue s && !isEmpty s

/-- The state without the move that the next step uses up: what `blockStep` and `deliver` are given. -/
def afterMove (s : State) : State := { s with inputs := s.inputs.tail }

/-! ### Parts of the state -/

/-- The slot of the j-th append from here on: the tail now for the first one, the slots after it for the others (rule
R100). -/
def tailSlot (s : State) (j : Nat) : Nat :=
  match s.cfg.qdisc with
  | .linear => s.wr + j
  | .ring => (s.wr + j) % s.cfg.cap

/-- The state less the fault record and the ghosts, which no port of the chip exposes (rules R41, R42, R43). -/
def eraseGhosts (s : State) : State := { s with fault := 0#2, drops := 0, events := [] }

/-- The state less everything that says when: the timer, the latency, the time, the draws and the history's times. -/
def eraseTiming (s : State) : State :=
  { s with tmrCount := 0#32, tmrArmed := false, tmrPend := false, now := 0, lat := 0, draws := 0
           events := s.events.map (fun e => (0, e.2)) }

/-! ### Runs -/

/-- k steps of the machine, up to the first that stops: what `Host.Core.run` of the core does. -/
def runSteps : Nat → State → Result
  | 0, s => .next s
  | k + 1, s => andThen (step s) (runSteps k)

/-- The effects of several actions, one after the other, each at a level of the bus given for it. -/
def runEffects : List (Bool × Instr) → State → Result
  | [], s => .next s
  | (b, i) :: rest, s => andThen (exec i { s with env := b }) (runEffects rest)

/-- The words that ENQUEUE moves among these carry, in order. -/
def enqueueMoves (ms : List Input) : List Word :=
  ms.filterMap (fun m => match m with | .enqueue w => some w | _ => none)

/-- The number that eight bits make, the first one the least significant: Σ b_i × 2^i (rule R128). -/
def bitsValue (bs : List Bool) : Nat := bs.foldr (fun b n => b.toNat + 2 * n) 0

/-- The eight hexadecimal digits of a word, the most significant first, as the raw line `.word 0x........` writes them
(rule R93). -/
def hexText (w : Word) : List Char :=
  (List.range 8).map (fun i => Nat.digitChar (w.toNat / 16 ^ (7 - i) % 16))

end Sys2Proof.Machine
end

