-- ==== Sys2Proof/Certificates/Slice0/Obligations.lean ====
section
/-! DEFINITION. The statements for the provers, in the order of OBLIGATIONS.json. Each docstring names the rules it
formalises. A statement about a draw holds for every value of it: Config.envDraw and Config.latencyDraw have no body,
and the level of the bus is a field of the state, so that a statement over all states covers every level. -/

open Sys2Proof Sys2Proof.Machine

/-! ### The encoding -/

/-- R95. Dec is total: an action for a well-formed word, read field by field, and a nonempty set of codes for any other;
Enc lays the fields out as rule R81 says; and each undoes the other. -/
def Obligations.DecodeAndEncodeAgree : Prop :=
  (∀ w : Word, wfWord w = true →
    ∃ i, decode w = .action i ∧ i.kind = (w.extractLsb' 0 3).toNat ∧ i.hold = (w.extractLsb' 16 16).toNat ∧
      i.callback = if w.getLsbD 7 = true then some (w.extractLsb' 8 8).toNat else none) ∧
  (∀ w : Word, wfWord w = false →
    ∃ codes, decode w = .reserved codes ∧ codes ≠ [] ∧
      (FaultCode.rsvdKind ∈ codes ↔ 5 < (w.extractLsb' 0 3).toNat) ∧
      (FaultCode.rsvdBits ∈ codes ↔
        w.extractLsb' 3 4 ≠ 0#4 ∨ (w.getLsbD 7 = false ∧ w.extractLsb' 8 8 ≠ 0#8))) ∧
  (∀ i : Instr, (encode i).extractLsb' 16 16 = BitVec.ofNat 16 i.hold ∧
    (encode i).extractLsb' 8 8 = BitVec.ofNat 8 (i.callback.getD 0) ∧
    (encode i).getLsbD 7 = i.callback.isSome ∧
    (encode i).extractLsb' 3 4 = 0#4 ∧
    (encode i).extractLsb' 0 3 = BitVec.ofNat 3 i.kind) ∧
  (∀ i : Instr, i.wellFormed = true → decode (encode i) = .action i) ∧
  (∀ (w : Word) (i : Instr), decode w = .action i → i.wellFormed = true ∧ encode i = w)

/-- R87. The three conditions of WF, that HOLD places none, and that ENQUEUE checks WF before it checks capacity: an
ill-formed word that meets a full queue is faulted and not counted as a drop. -/
def Obligations.WellFormedWordConditions : Prop :=
  (∀ w : Word, wfWord w = true ↔
    (w.extractLsb' 0 3).toNat ≤ 5 ∧ w.extractLsb' 3 4 = 0#4 ∧
      (w.getLsbD 7 = true ∨ w.extractLsb' 8 8 = 0#8)) ∧
  (∀ (w : Word) (h : BitVec 16), wfWord (h ++ w.extractLsb' 0 16 : BitVec 32) = wfWord w) ∧
  (∀ (w : Word) (s : State), wfWord w = false → isFull s = true →
    ∃ t, enqueue w s = .next t ∧ t.drops = s.drops ∧ t.fault ≠ 0#2 ∧
      t.events = s.events ++ [(s.now, .faulted w (rsvdCodes w))])

/-- The encoding examples of 30_encoding.md section 4, and V-E13 to V-E19 of 95_test_vectors.md: one word of each kind,
and words of each reserved form. -/
def Obligations.ExampleWordsDecode : Prop :=
  decode 0x01E00000#32 = .action (.busLow 480 none) ∧
  decode 0x00460001#32 = .action (.releaseBus 70 none) ∧
  decode 0x019A0182#32 = .action (.sampleBit 410 (some 1)) ∧
  decode 0x00000283#32 = .action (.transferByte 0 (some 2)) ∧
  decode 0x00640004#32 = .action (.waitForBusHigh 100 none) ∧
  decode 0x00050005#32 = .action (.clearShiftRegister 5 none) ∧
  decode 0xFFFF0000#32 = .action (.busLow 65535 none) ∧
  decode 0x00000006#32 = .reserved [.rsvdKind] ∧
  decode 0x00000008#32 = .reserved [.rsvdBits] ∧
  decode 0x00000100#32 = .reserved [.rsvdBits] ∧
  decode 0x0000000F#32 = .reserved [.rsvdKind, .rsvdBits]

/-! ### ENQUEUE -/

/-- R88, R89. A word with a reserved kind, or with reserved bits or a stray handle, is not appended; each reason raises
its fault, both in one step if both hold, and the event names the whole word. In a state that meets the invariant no
live word is such a word, so none reaches EXPIRY. -/
def Obligations.ReservedWordsAreFaultedNotAppended : Prop :=
  (∀ (w : Word) (s : State),
    (5 < (w.extractLsb' 0 3).toNat ∨
      (w.extractLsb' 3 4 ≠ 0#4 ∨ (w.getLsbD 7 = false ∧ w.extractLsb' 8 8 ≠ 0#8))) →
    ∃ f codes, enqueue w s =
        .next { s with fault := f, events := s.events ++ [(s.now, .faulted w codes)] } ∧
      (f.getLsbD 0 = true ↔ s.fault.getLsbD 0 = true ∨ 5 < (w.extractLsb' 0 3).toNat) ∧
      (f.getLsbD 1 = true ↔ s.fault.getLsbD 1 = true ∨
        (w.extractLsb' 3 4 ≠ 0#4 ∨ (w.getLsbD 7 = false ∧ w.extractLsb' 8 8 ≠ 0#8))) ∧
      (FaultCode.rsvdKind ∈ codes ↔ 5 < (w.extractLsb' 0 3).toNat) ∧
      (FaultCode.rsvdBits ∈ codes ↔
        w.extractLsb' 3 4 ≠ 0#4 ∨ (w.getLsbD 7 = false ∧ w.extractLsb' 8 8 ≠ 0#8))) ∧
  (∀ (s : State) (w : Word), Inv s → w ∈ liveWords s →
    (w.extractLsb' 0 3).toNat ≤ 5 ∧ w.extractLsb' 3 4 = 0#4 ∧
      (w.getLsbD 7 = true ∨ w.extractLsb' 8 8 = 0#8))

/-- R170. `raise Fault(code)` sets its bit and changes nothing else; a set bit survives every step but a reset, which
clears it; and FAULT changes only in a step whose history records an ENQUEUE's fault, of a word that is not appended. -/
def Obligations.FaultBitsAreSticky : Prop :=
  (∀ (c : FaultCode) (s : State), ∃ f, raiseFault c s = { s with fault := f } ∧
    ∀ i, f.getLsbD i = true ↔ s.fault.getLsbD i = true ∨ (i = 0 ∧ c = .rsvdKind) ∨ (i = 1 ∧ c = .rsvdBits)) ∧
  (∀ s t : State, step s = .next t → resetMoves s = false →
    (∀ i, s.fault.getLsbD i = true → t.fault.getLsbD i = true) ∧
    (t.fault ≠ s.fault → ∃ es w codes, t.events = s.events ++ es ∧ (s.now, Event.faulted w codes) ∈ es ∧
      w ∉ acceptedWords es)) ∧
  (∀ s t : State, step s = .next t → resetMoves s = true → t.fault = 0#2)

/-- R102, R174. A well-formed word that meets a full queue (rule R33) is dropped: only DROPS and the history change. -/
def Obligations.FullQueueDropsSilently : Prop :=
  ∀ (w : Word) (s : State), wfWord w = true →
    ((s.cfg.qdisc = .linear ∧ s.wr = s.cfg.cap) ∨ (s.cfg.qdisc = .ring ∧ s.cnt = s.cfg.cap)) →
    enqueue w s = .next { s with drops := s.drops + 1, events := s.events ++ [(s.now, .dropped w)] }

/-- R100's accepting branch. A well-formed word that meets room is written to the slot at WR, WR moves to the next slot,
CNT counts it, and no other slot changes. (That a slot outside the live window keeps its word is the model's choice, log
entry 8.) -/
def Obligations.EnqueueAppendsAtTheTail : Prop :=
  ∀ (w : Word) (s : State), wfWord w = true → isFull s = false → s.wr < s.cfg.cap →
    ∃ t, enqueue w s = .next t ∧
      t = { s with
        q := t.q, cnt := s.cnt + 1
        wr := match s.cfg.qdisc with
          | .linear => s.wr + 1
          | .ring => (s.wr + 1) % s.cfg.cap
        events := s.events ++ [(s.now, .enqueued w)] } ∧
      Memory.read t.q s.wr = some w ∧ ∀ k, k ≠ s.wr → Memory.read t.q k = Memory.read s.q k

/-- R100 (its pseudocode and corner case (d)), R61, R111. However many ENQUEUEs, the timer, the time, SR, the line and RD
are untouched, and the only slots written are the ones the tail index names in turn. (Of a slot outside the live window, that
it reads as before is the model's choice, log entry 8.) -/
def Obligations.EnqueuesLeaveTimerLineAndShiftAlone : Prop :=
  ∀ (ws : List Word) (s t : State), enqueueAll ws s = .next t →
    t.tmrCount = s.tmrCount ∧ t.tmrArmed = s.tmrArmed ∧ t.tmrPend = s.tmrPend ∧ t.lat = s.lat ∧
    t.now = s.now ∧ t.sr = s.sr ∧ t.lineDir = s.lineDir ∧ t.rd = s.rd ∧ t.cfg = s.cfg ∧
    t.env = s.env ∧ t.bindings = s.bindings ∧ s.cnt ≤ t.cnt ∧
    ∀ a, (∀ j < t.cnt - s.cnt, a ≠ tailSlot s j) → Memory.read t.q a = Memory.read s.q a

/-- S5 of 95_test_vectors.md. Right after reset, for any parameters, n well-formed ENQUEUEs leave min(n, CAP) entries,
the first ones in order, and count the others as drops, with no fault. -/
def Obligations.CapacityBoundsAcceptance : Prop :=
  ∀ (c : Config) (ws : List Word), (∀ w ∈ ws, wfWord w = true) →
    ∃ t, enqueueAll ws (State.resetWith c) = .next t ∧ t.cnt = min ws.length c.cap ∧
      t.drops = ws.length - c.cap ∧ t.fault = 0#2 ∧ liveWords t = ws.take c.cap

/-- R101. Accepted words are the executed ones followed by the live ones, in order, and every step keeps it so; an
EXPIRY of a non-empty queue executes exactly the head word, and no other step executes one. -/
def Obligations.AcceptedEntriesExecuteInOrder : Prop :=
  ∀ s t : State, Inv s → InOrder s → step s = .next t →
    InOrder t ∧
    (slotBegins s = true → ∃ w, Memory.read s.q s.rd = some w ∧
      executedWords t.events = executedWords s.events ++ [w]) ∧
    (slotBegins s = false → resetMoves s = false → executedWords t.events = executedWords s.events)

/-- R110. The live entries after a step are those before it, in order, less the head if it was executed, with the newly
accepted words behind them; a reset empties the queue. -/
def Obligations.EntriesLeaveOnlyByExecutionOrReset : Prop :=
  ∀ s t : State, Inv s → step s = .next t →
    (resetMoves s = false → ∃ new,
      liveWords t = (liveWords s).drop (if slotBegins s = true then 1 else 0) ++ new ∧
      acceptedWords t.events = acceptedWords s.events ++ new) ∧
    (resetMoves s = true → liveWords t = [])

/-- R150, R207. A list of well-formed words that fits the remaining capacity is accepted whole and in order. -/
def Obligations.WordsThatFitAreAllAccepted : Prop :=
  ∀ (ws : List Word) (s : State), Inv s → (∀ w ∈ ws, wfWord w = true) →
    (s.cfg.qdisc = .linear → s.wr + ws.length ≤ s.cfg.cap) →
    (s.cfg.qdisc = .ring → s.cnt + ws.length ≤ s.cfg.cap) →
    ∃ t, enqueueAll ws s = .next t ∧ liveWords t = liveWords s ++ ws ∧ t.drops = s.drops ∧ t.fault = s.fault

/-! ### EXPIRY -/

/-- R104. An EXPIRY that finds the queue empty acknowledges and arms the idle poll, and nothing else; with no agent outside
the block moving, the next expiry is then IDLE_POLL_US × TICKS_PER_US ticks later, and the queue is polled again once its
latency draw has passed. -/
def Obligations.EmptyExpiryOnlyRearms : Prop :=
  ∀ s : State, blockMoves s = true → expiryDue s = true → s.cnt = 0 →
    step s = .next { s with
      inputs := s.inputs.tail
      tmrPend := false, tmrArmed := true
      tmrCount := BitVec.ofNat 32 (s.cfg.idlePollUs * s.cfg.ticksPerUs)
      events := s.events ++ [(s.now, .armed s.cfg.idlePollUs)] } ∧
    (s.inputs = [] → ∃ t u ε,
      runSteps (1 + s.cfg.idlePollUs * s.cfg.ticksPerUs) s = .next t ∧
      t.tmrPend = true ∧ t.now = s.now + s.cfg.idlePollUs * s.cfg.ticksPerUs ∧ t.lat = ε ∧ t.cnt = 0 ∧
      runSteps ε t = .next u ∧ expiryDue u = true ∧ u.now = t.now + ε ∧ u.cnt = 0)

/-- R105. The slot of a live action is armed for max(hold, MIN_HOLD_US) µs, in ticks that fit the counter, whatever the
action's effect and its callback do. -/
def Obligations.ArmedDurationHasTheFloor : Prop :=
  ∀ (s t : State) (w : Word), slotBegins s = true → Memory.read s.q s.rd = some w → step s = .next t →
    t.tmrArmed = true ∧ t.tmrPend = false ∧
    t.tmrCount.toNat = max (w.extractLsb' 16 16).toNat s.cfg.minHoldUs * s.cfg.ticksPerUs ∧
    ∃ es, t.events =
      s.events ++ (s.now, .armed (max (w.extractLsb' 16 16).toNat s.cfg.minHoldUs)) :: es

/-- R106. The advance of a queue that is not empty takes its head off. Under LINEAR the last entry's removal returns the
whole capacity, and no other removal returns any; under RING each removal returns one slot. -/
def Obligations.AdvanceRemovesTheHead : Prop :=
  ∀ (s : State) (w : Word), Inv s → s.cnt ≠ 0 → Memory.read s.q s.rd = some w →
    (advance s).cnt = s.cnt - 1 ∧ liveWords s = w :: liveWords (advance s) ∧
    (s.cfg.qdisc = .linear → s.cnt = 1 → (advance s).rd = 0 ∧ (advance s).wr = 0) ∧
    (s.cfg.qdisc = .linear → s.cnt ≠ 1 →
      (advance s).rd = s.rd + 1 ∧ (advance s).wr = s.wr ∧ isFull (advance s) = isFull s) ∧
    (s.cfg.qdisc = .ring →
      (advance s).rd = (s.rd + 1) % s.cfg.cap ∧ (advance s).wr = s.wr ∧ isFull (advance s) = false)

/-- R35. RD moves one slot for an EXPIRY that finds the queue non-empty, to 0 under LINEAR when that empties it, and no
step but that and a reset writes it. -/
def Obligations.HeadIndexMovesOnlyAtSlots : Prop :=
  ∀ s t : State, Inv s → step s = .next t → resetMoves s = false →
    (slotBegins s = false → t.rd = s.rd) ∧
    (slotBegins s = true → s.cfg.qdisc = .linear → s.cnt = 1 → t.rd = 0) ∧
    (slotBegins s = true → s.cfg.qdisc = .linear → s.cnt ≠ 1 → t.rd = s.rd + 1) ∧
    (slotBegins s = true → s.cfg.qdisc = .ring → t.rd = (s.rd + 1) % s.cfg.cap)

/-- R107. When an EXPIRY is due and the head slot holds a word that stands for the action i, the step is exec of i in the
state acknowledged, re-armed and advanced, in that order, with the execution recorded; the action is the one its KIND
code names, never a reserved code. -/
def Obligations.StepRunsTheDecodedAction : Prop :=
  (∀ (s : State) (w : Word) (i : Instr), blockMoves s = true → expiryDue s = true → s.cnt ≠ 0 →
    s.rd < s.cfg.cap → Memory.read s.q s.rd = some w → decode w = .action i →
    step s = exec i { s with
      inputs := s.inputs.tail
      tmrPend := false, tmrArmed := true
      tmrCount := BitVec.ofNat 32 (max i.hold s.cfg.minHoldUs * s.cfg.ticksPerUs)
      cnt := s.cnt - 1
      rd := match s.cfg.qdisc with
        | .linear => if s.rd + 1 = s.wr then 0 else s.rd + 1
        | .ring => (s.rd + 1) % s.cfg.cap
      wr := match s.cfg.qdisc with
        | .linear => if s.rd + 1 = s.wr then 0 else s.wr
        | .ring => s.wr
      events := s.events ++ [(s.now, .armed (max i.hold s.cfg.minHoldUs)), (s.now, .executed w)] }) ∧
  (∀ (w : Word) (i : Instr), decode w = .action i →
    i.kind = (w.extractLsb' 0 3).toNat ∧ (w.extractLsb' 0 3).toNat ≤ 5)

/-- THE MODEL'S CHOICE (log entry 15), for states that no run from a good state reaches: an EXPIRY whose head slot holds a
reserved word is refused by name, and one whose head slot is not below CAP, or was never written, faults by name. -/
def Obligations.UnreachableHeadsStopByName : Prop :=
  (∀ (s : State) (w : Word), blockMoves s = true → expiryDue s = true → s.cnt ≠ 0 →
    s.rd < s.cfg.cap → Memory.read s.q s.rd = some w → wfWord w = false →
    step s = .refused (.reservedHeadWord w)) ∧
  (∀ s : State, blockMoves s = true → expiryDue s = true → s.cnt ≠ 0 → s.cfg.cap ≤ s.rd →
    step s = .fault (.slotOutOfRange s.rd)) ∧
  (∀ s : State, blockMoves s = true → expiryDue s = true → s.cnt ≠ 0 → s.rd < s.cfg.cap →
    Memory.read s.q s.rd = none → step s = .fault (.unwrittenSlot s.rd)) ∧
  (∀ (w : Word) (s : State), wfWord w = true → isFull s = false → s.cfg.cap ≤ s.wr →
    enqueue w s = .fault (.slotOutOfRange s.wr))

/-- 20_memory.md section 4 (R71). The steps of the other agents: with no EXPIRY due and no agent outside the block moving,
one tick passes; and each waiting move of the host or of the bus environment is one step of its own. (That waiting moves
are a list in the state is the model's choice, log entry 5.) -/
def Obligations.StepDeliversWaitingMoves : Prop :=
  (∀ s : State, blockMoves s = true → expiryDue s = false → step s = .next (tick { s with inputs := s.inputs.tail })) ∧
  (∀ (s : State) (w : Word) (rest : List Input), s.inputs = .enqueue w :: rest →
    step s = enqueue w { s with inputs := rest }) ∧
  (∀ (s : State) (b : Bool) (rest : List Input), s.inputs = .env b :: rest →
    step s = .next { s with inputs := rest, env := b }) ∧
  (∀ (s : State) (n : Nat) (f : HostFn) (rest : List Input), s.inputs = .bind n f :: rest →
    ∃ t, step s = .next t ∧ t = { s with inputs := rest, bindings := t.bindings } ∧
      Memory.read t.bindings n = some f ∧ ∀ m, m ≠ n → Memory.read t.bindings m = Memory.read s.bindings m) ∧
  (∀ (s : State) (rest : List Input), s.inputs = .reset :: rest →
    step s = .next { State.resetWith s.cfg with
      env := s.env, draws := s.draws, bindings := s.bindings, inputs := rest })

/-- R182. From `Arm(us)` with nothing pending and no agent outside the block moving, the timer counts one a tick, stops and
sets TMR_PEND exactly at tick us × TICKS_PER_US, and touches neither the queue nor SR nor the line. A tick leaves a stopped
timer alone. -/
def Obligations.ExpiryComesExactlyAtTheEndOfTheCount : Prop :=
  (∀ (s : State) (us k : Nat), 1 ≤ us → us ≤ 65535 → s.tmrPend = false → s.inputs = [] →
    k ≤ us * s.cfg.ticksPerUs →
    ∃ t, runSteps k (arm us s) = .next t ∧ t.now = s.now + k ∧
      t.tmrCount.toNat = us * s.cfg.ticksPerUs - k ∧
      (t.tmrArmed = true ↔ k < us * s.cfg.ticksPerUs) ∧
      (t.tmrPend = true ↔ k = us * s.cfg.ticksPerUs) ∧
      t.q = s.q ∧ t.cnt = s.cnt ∧ t.sr = s.sr ∧ t.lineDir = s.lineDir) ∧
  (∀ s : State, s.tmrArmed = false →
    (tick s).tmrCount = s.tmrCount ∧ (tick s).tmrArmed = false ∧ (tick s).tmrPend = s.tmrPend)

/-- R112. From the EXPIRY of an action to the next EXPIRY, with no agent outside the block moving, there pass exactly
max(hold, MIN_HOLD_US) × TICKS_PER_US ticks and the latency draw ε of that expiry; no EXPIRY is due before. -/
def Obligations.SlotsAreSpacedByHoldAndLatency : Prop :=
  ∀ (s t : State) (w : Word), slotBegins s = true → s.inputs = [] → Memory.read s.q s.rd = some w →
    step s = .next t →
    let hold := max (w.extractLsb' 16 16).toNat s.cfg.minHoldUs * s.cfg.ticksPerUs
    let ε := Config.latencyDraw (s.draws + hold - 1)
    (∃ u, runSteps (hold + ε) t = .next u ∧ expiryDue u = true ∧ u.now = s.now + hold + ε) ∧
    ∀ k < hold + ε, ∃ u, runSteps k t = .next u ∧ expiryDue u = false

/-- R203 and the rules it rests on (R112, R179, R182). From every state with the timer counting and no move waiting, the EXPIRY
is due exactly the count and the latency draw later, and not before, with the live words as they were. So from reset, for any
parameters and any moves of the host and of the bus environment that stand before that tick, ENQUEUEs, bindings and level
changes interleaved with ticks in any way: the first EXPIRY is taken at tick IDLE_POLL_US × TICKS_PER_US + ε, none before, and
the first word accepted is what it executes. (Which draw ε is, the one numbered by the tick of the expiry, is the model's
choice, log entry 2; the list of moves is log entry 5.) -/
def Obligations.FirstExpiryAfterReset : Prop :=
  (∀ s : State, s.inputs = [] → s.tmrArmed = true → s.tmrPend = false → s.tmrCount ≠ 0#32 →
    let n := s.tmrCount.toNat
    let ε := Config.latencyDraw (s.draws + n - 1)
    (∃ u, runSteps (n + ε) s = .next u ∧ expiryDue u = true ∧ u.now = s.now + n + ε ∧
      liveWords u = liveWords s) ∧
    ∀ k < n + ε, ∃ u, runSteps k s = .next u ∧ expiryDue u = false) ∧
  (∀ (c : Config) (ms : List Input), (∀ m ∈ ms, m ≠ .reset) →
    let poll := c.idlePollUs * c.ticksPerUs
    let ε := Config.latencyDraw poll
    let accepted := (enqueueMoves ms).filter wfWord
    let steps := ms.length - ms.count .pass + (poll + ε)
    ms.count .pass < poll + ε →
    (∃ u v, runSteps steps { State.resetWith c with inputs := ms } = .next u ∧ expiryDue u = true ∧
      u.now = poll + ε ∧ liveWords u = accepted.take c.cap ∧ step u = .next v ∧
      executedWords v.events = accepted.take 1 ∧
      ∀ w ∈ executedWords v.events, (poll + ε, Event.executed w) ∈ v.events) ∧
    ∀ k < steps, ∃ u, runSteps k { State.resetWith c with inputs := ms } = .next u ∧ expiryDue u = false)

/-- R178. TMR_PEND is cleared by the EXPIRY that is due, which acknowledges whatever the queue holds, and by no other step
but a reset; and it is set only by the tick on which the armed timer reaches 0. -/
def Obligations.OnlyExpiryAcknowledges : Prop :=
  ∀ s t : State, step s = .next t → resetMoves s = false →
    (s.tmrPend = true → (t.tmrPend = false ↔ blockMoves s = true ∧ s.lat = 0)) ∧
    (s.tmrPend = false →
      (t.tmrPend = true ↔ blockMoves s = true ∧ s.tmrArmed = true ∧ s.tmrCount = 1#32))

/-- R181. `Arm(us)` loads us × TICKS_PER_US, which fits the counter, starts the timer, replaces a count in progress and
cancels no pending expiry. An EXPIRY arms, for IDLE_POLL_US if the queue is empty and else for the head's floored hold, and
a reset arms for IDLE_POLL_US; no other step does, and the counter then only counts down. -/
def Obligations.ArmLoadsTheTimer : Prop :=
  (∀ (us : Nat) (s : State), arm us s = { s with
    tmrCount := BitVec.ofNat 32 (us * s.cfg.ticksPerUs), tmrArmed := true
    events := s.events ++ [(s.now, .armed us)] } ∧
    (us ≤ 65535 → (arm us s).tmrCount.toNat = us * s.cfg.ticksPerUs)) ∧
  (∀ s t : State, step s = .next t → blockMoves s = true → expiryDue s = true →
    ∃ us, s.cfg.minHoldUs ≤ us ∧ us ≤ 65535 ∧
      t.tmrArmed = true ∧ t.tmrCount.toNat = us * s.cfg.ticksPerUs ∧ t.tmrCount ≠ 0#32 ∧
      (s.cnt = 0 → us = s.cfg.idlePollUs) ∧
      (s.cnt ≠ 0 → ∃ w, Memory.read s.q s.rd = some w ∧
        us = max (w.extractLsb' 16 16).toNat s.cfg.minHoldUs)) ∧
  (∀ s t : State, step s = .next t → resetMoves s = true →
    t.tmrArmed = true ∧ t.tmrCount.toNat = s.cfg.idlePollUs * s.cfg.ticksPerUs) ∧
  (∀ s t : State, step s = .next t → resetMoves s = false → (blockMoves s && expiryDue s) = false →
    (t.tmrArmed = true → s.tmrArmed = true) ∧
    t.tmrCount = if blockMoves s = true ∧ s.tmrArmed = true then s.tmrCount - 1#32 else s.tmrCount)

/-- 40_scheduler.md (R109, decision D17) and R25. Time passes only in the block's ticks, one at a time: an EXPIRY with its
callbacks, an ENQUEUE and every other move take none. A reset starts the time again (log entry 17). -/
def Obligations.TimePassesOnlyInTicks : Prop :=
  ∀ s t : State, step s = .next t →
    (resetMoves s = false →
      t.now = s.now + (if blockMoves s = true ∧ expiryDue s = false then 1 else 0)) ∧
    (resetMoves s = true → t.now = 0)

/-- 42_bus_line.md section 2 (R143). While the block drives the line its level is 0; else it is what the bus environment
gives it, which may be either level at any time and which only a tick or the environment itself changes. -/
def Obligations.LineLevelIsOwnDriveOrEnvironment : Prop :=
  (∀ s : State, (s.lineDir = .outputLow → level s = false) ∧ (s.lineDir = .input → level s = s.env)) ∧
  (∀ (s : State) (b : Bool), s.lineDir = .input →
    ∃ t, step { s with inputs := .env b :: s.inputs } = .next t ∧ level t = b ∧ t = { s with env := b }) ∧
  (∀ s t : State, step s = .next t → t.env ≠ s.env →
    (blockMoves s = true ∧ expiryDue s = false) ∨ s.inputs.head? = some (.env t.env))

/-! ### The actions -/

/-- R140. BusLow's effect is DriveLow(): LINE_DIR <- 1 and its event, whatever the hold and the callback; nothing else
changes. -/
def Obligations.BusLowDrivesTheLine : Prop :=
  ∀ (hold : Nat) (cb : Option Nat) (s : State),
    exec (.busLow hold cb) s =
      .next { s with lineDir := .outputLow, events := s.events ++ [(s.now, .dir .outputLow)] } ∧
    exec (.busLow hold cb) s = .next (driveLow s) ∧ level (driveLow s) = false

/-- R141. ReleaseBus's effect is Release(): LINE_DIR <- 0 and its event, and the level is then the bus environment's;
nothing else changes. -/
def Obligations.ReleaseBusReleasesTheLine : Prop :=
  ∀ (hold : Nat) (cb : Option Nat) (s : State),
    exec (.releaseBus hold cb) s =
      .next { s with lineDir := .input, events := s.events ++ [(s.now, .dir .input)] } ∧
    exec (.releaseBus hold cb) s = .next (release s) ∧ level (release s) = s.env

/-- R122, R142. SampleBit reads the line at the start of its slot, 0 while the block drives it and else the bus
environment's level; shifts the bit in at the top; and, with a callback, delivers the bit, not SR, and then runs what the
host bound to the handle. Its word has KIND 0b010. -/
def Obligations.SampleBitShiftsTheLevelIn : Prop :=
  ∀ (hold : Nat) (cb : Option Nat) (s : State),
    let b : Bool := if s.lineDir = .outputLow then false else s.env
    let after : State := { s with
      sr := BitVec.ofBool b ++ s.sr.extractLsb' 1 7
      events := s.events ++ [(s.now, .sampled b)] }
    exec (.sampleBit hold none) s = .next after ∧
    (∀ n, exec (.sampleBit hold (some n)) s =
      enqueueAll (hostWords s.bindings n (if b = true then 1#8 else 0#8))
        { after with events := after.events ++ [(s.now, .callback n (if b = true then 1#8 else 0#8))] }) ∧
    (encode (.sampleBit hold cb)).extractLsb' 0 7 = 2#7

/-- R123's pseudocode and corners (a), (b). TransferByte delivers SR to its callback and leaves SR alone, and does nothing
without one. -/
def Obligations.TransferByteDeliversShiftRegister : Prop :=
  ∀ (hold : Nat) (s : State),
    exec (.transferByte hold none) s = .next s ∧
    (∀ n, exec (.transferByte hold (some n)) s =
      enqueueAll (hostWords s.bindings n s.sr)
        { s with events := s.events ++ [(s.now, .callback n s.sr)] }) ∧
    (∀ n t, exec (.transferByte hold (some n)) s = .next t → t.sr = s.sr)

/-- R124. WaitForBusHigh has no effect: it tests nothing, whatever the line does, and changes nothing; its slot ends when
its armed duration does (SlotsAreSpacedByHoldAndLatency, which covers every kind). -/
def Obligations.WaitForBusHighHasNoEffect : Prop :=
  ∀ (hold : Nat) (cb : Option Nat) (s : State) (b : Bool),
    exec (.waitForBusHigh hold cb) { s with env := b } = .next { s with env := b } ∧
    (encode (.waitForBusHigh hold cb)).extractLsb' 0 7 = 4#7

/-- R125. ClearShiftRegister zeroes SR and changes nothing else, the line included. -/
def Obligations.ClearShiftRegisterZeroesIt : Prop :=
  ∀ (hold : Nat) (cb : Option Nat) (s : State),
    exec (.clearShiftRegister hold cb) s = .next { s with sr := 0#8 } ∧
    (encode (.clearShiftRegister hold cb)).extractLsb' 0 7 = 5#7

/-- R126. A callback on BusLow, ReleaseBus, WaitForBusHigh or ClearShiftRegister is not invoked: the action executes
exactly as without it, and no callback is delivered. -/
def Obligations.CallbacksOnOtherKindsAreIgnored : Prop :=
  ∀ (hold n : Nat) (s : State), ∀ k ∈ [Instr.busLow, Instr.releaseBus, Instr.waitForBusHigh, Instr.clearShiftRegister],
    exec (k hold (some n)) s = exec (k hold none) s ∧
    ∃ t, exec (k hold (some n)) s = .next t ∧ callbacks t.events = callbacks s.events

/-- R127, R186. From a state that meets the invariant SampleBit and TransferByte complete, with or without a callback and
whatever the host's function does: SR is the shifted one, or as it was, and the invariant holds after. -/
def Obligations.CallbackActionsComplete : Prop :=
  ∀ (hold : Nat) (cb : Option Nat) (s : State), Inv s →
    (∃ t, exec (.sampleBit hold cb) s = .next t ∧ Inv t ∧ t.sr = shiftIn (level s) s.sr) ∧
    (∃ t, exec (.transferByte hold cb) s = .next t ∧ Inv t ∧ t.sr = s.sr)

/-- The frame of the four kinds that deliver nothing: BusLow and ReleaseBus change the line's direction and the history,
ClearShiftRegister changes SR, WaitForBusHigh nothing; every slot of Q and every other register is as before. -/
def Obligations.LineAndClearActionsFrame : Prop :=
  ∀ (hold : Nat) (cb : Option Nat) (s t : State) (i : Instr),
    i ∈ [Instr.busLow hold cb, .releaseBus hold cb, .waitForBusHigh hold cb, .clearShiftRegister hold cb] →
    exec i s = .next t →
    (∀ a, Memory.read t.q a = Memory.read s.q a) ∧ t.rd = s.rd ∧ t.wr = s.wr ∧ t.cnt = s.cnt ∧
    t.tmrCount = s.tmrCount ∧ t.tmrArmed = s.tmrArmed ∧ t.tmrPend = s.tmrPend ∧ t.lat = s.lat ∧
    t.now = s.now ∧ t.fault = s.fault ∧ t.drops = s.drops ∧ t.env = s.env ∧ t.cfg = s.cfg ∧
    t.bindings = s.bindings ∧ t.inputs = s.inputs ∧
    (i ≠ .clearShiftRegister hold cb → t.sr = s.sr) ∧
    (i = .waitForBusHigh hold cb ∨ i = .clearShiftRegister hold cb →
      t.lineDir = s.lineDir ∧ t.events = s.events)

/-- The frame of SampleBit and TransferByte. SampleBit writes SR, and neither writes the line, the timer or RD. What the
host's function ENQUEUEs goes to the slots the tail index names, one for each word accepted, and every other slot is as
before (of a slot outside the live window this is the model's choice, log entry 8); without a callback no slot changes, and
the tail, the count, FAULT and DROPS stay. -/
def Obligations.CallbackActionsFrame : Prop :=
  ∀ (hold : Nat) (cb : Option Nat) (s t : State) (i : Instr),
    i ∈ [Instr.sampleBit hold cb, .transferByte hold cb] → exec i s = .next t →
    t.rd = s.rd ∧ t.lineDir = s.lineDir ∧ t.tmrCount = s.tmrCount ∧ t.tmrArmed = s.tmrArmed ∧
    t.tmrPend = s.tmrPend ∧ t.lat = s.lat ∧ t.now = s.now ∧ t.env = s.env ∧ t.cfg = s.cfg ∧
    t.bindings = s.bindings ∧ t.inputs = s.inputs ∧
    (i = .transferByte hold cb → t.sr = s.sr) ∧ s.cnt ≤ t.cnt ∧
    (∀ a, (∀ j < t.cnt - s.cnt, a ≠ tailSlot s j) → Memory.read t.q a = Memory.read s.q a) ∧
    (cb = none → t.q = s.q ∧ t.wr = s.wr ∧ t.cnt = s.cnt ∧ t.fault = s.fault ∧ t.drops = s.drops)

/-- R129. An action delivers exactly one callback if it is a SampleBit or a TransferByte that carries one, and else none,
whatever the host's function ENQUEUEs. -/
def Obligations.OneCallbackPerCallbackAction : Prop :=
  ∀ (i : Instr) (s t : State), exec i s = .next t →
    callbacks t.events = callbacks s.events ++
      (match i with
       | .sampleBit _ (some n) => [(n, zextBit (level s))]
       | .transferByte _ (some n) => [(n, s.sr)]
       | _ => [])

/-- R128. However the levels of the bus and the callbacks go, eight bits sampled with no ClearShiftRegister among the
actions leave SR = Σ b_i × 2^i, whatever SR held before; and at most eight sampled after SR was zeroed stand in its top
bits, in the same order, with zeros below. -/
def Obligations.EightSamplesAssembleTheByte : Prop :=
  ∀ (acts : List (Bool × Instr)) (s t : State) (bits : List Bool),
    (∀ a ∈ acts, a.2.kind ≠ 5) → runEffects acts s = .next t →
    sampledBits t.events = sampledBits s.events ++ bits →
    (bits.length = 8 → t.sr.toNat = bitsValue bits) ∧
    (s.sr = 0#8 → bits.length ≤ 8 → t.sr.toNat = bitsValue bits * 2 ^ (8 - bits.length))

/-- R114, R76. Under LINEAR, when the only live entry is executed and its callback ENQUEUEs well-formed words, the first of
them lands at slot 0, behind the advance that emptied the queue, and none of them is executed in that step. -/
def Obligations.CallbackEnqueuesLandBehindTheAdvance : Prop :=
  ∀ (s t : State) (w x : Word) (xs : List Word) (i : Instr) (n : Nat), Inv s → slotBegins s = true →
    s.cfg.qdisc = .linear → s.cnt = 1 → Memory.read s.q s.rd = some w → decode w = .action i →
    i.callback = some n →
    ((i.kind = 2 ∧ hostWords s.bindings n (zextBit (level s)) = x :: xs) ∨
      (i.kind = 3 ∧ hostWords s.bindings n s.sr = x :: xs)) →
    wfWord x = true → step s = .next t →
    t.rd = 0 ∧ 1 ≤ t.cnt ∧ Memory.read t.q 0 = some x ∧
      executedWords t.events = executedWords s.events ++ [w]

/-! ### Rules of the whole machine -/

/-- R36, R62, R145. LINE_DIR changes only by a reset, which releases the line, and by a slot whose action is BusLow or
ReleaseBus, which leaves the line driven, or released; an idle EXPIRY and every other step leave it alone. -/
def Obligations.OnlyLineActionsMoveTheLine : Prop :=
  ∀ s t : State, step s = .next t →
    (resetMoves s = true → t.lineDir = .input) ∧
    (resetMoves s = false → slotBegins s = false → t.lineDir = s.lineDir) ∧
    (slotBegins s = true → ∃ w i, Memory.read s.q s.rd = some w ∧ decode w = .action i ∧
      t.lineDir = (match i with
        | .busLow _ _ => .outputLow
        | .releaseBus _ _ => .input
        | _ => s.lineDir))

/-- R34. SR is written only by a reset and by a slot whose action is SampleBit, which shifts the level in, or
ClearShiftRegister, which zeroes it. -/
def Obligations.OnlySampleAndClearWriteShiftRegister : Prop :=
  ∀ s t : State, step s = .next t →
    (resetMoves s = true → t.sr = 0#8) ∧
    (resetMoves s = false → slotBegins s = false → t.sr = s.sr) ∧
    (slotBegins s = true → ∃ w i, Memory.read s.q s.rd = some w ∧ decode w = .action i ∧
      t.sr = (match i with
        | .sampleBit _ _ => BitVec.ofBool (level s) ++ s.sr.extractLsb' 1 7
        | .clearShiftRegister _ _ => 0#8
        | _ => s.sr))

/-- 10_state.md section 6 (R46). The parameters are fixed for the life of the machine: no step changes them, a reset
included. -/
def Obligations.ParametersNeverChange : Prop :=
  ∀ s t : State, step s = .next t → t.cfg = s.cfg

/-- 10_state.md section 5 (R41 to R43), decision D30. FAULT, DROPS and EVENTS influence nothing: two states that differ in
them only step to states that differ in them only. -/
def Obligations.GhostsInfluenceNothing : Prop :=
  ∀ s s' t : State, eraseGhosts s = eraseGhosts s' → step s = .next t →
    ∃ t', step s' = .next t' ∧ eraseGhosts t = eraseGhosts t'

/-- R213. What an action does (to SR, the line, the queue, the callbacks and their ENQUEUEs) does not depend on the timer,
the latency, the time or the draws. -/
def Obligations.EffectsDoNotDependOnTiming : Prop :=
  ∀ (i : Instr) (s s' t : State), eraseTiming s = eraseTiming s' → exec i s = .next t →
    ∃ t', exec i s' = .next t' ∧ eraseTiming t = eraseTiming t'

/-! ### Reset and the invariant -/

/-- R50, R52, R53. The block at the end of reset, for any parameters: SR = 0x00; the timer armed for the idle poll with the
count it fits, nothing pending; FAULT, DROPS and EVENTS empty. -/
def Obligations.ResetValues : Prop :=
  ∀ c : Config,
    (State.resetWith c).sr = 0x00#8 ∧
    (State.resetWith c).tmrCount.toNat = c.idlePollUs * c.ticksPerUs ∧
    (State.resetWith c).tmrArmed = true ∧ (State.resetWith c).tmrPend = false ∧
    (State.resetWith c).fault = 0#2 ∧ (State.resetWith c).drops = 0 ∧ (State.resetWith c).events = []

/-- 10_state.md section 7 (R49, R51). At reset the queue is empty and the line is released. (That a slot never written reads as
no value at all is the model's choice, log entry 15: R49 leaves its content unspecified, and no rule reads it.) -/
def Obligations.ResetQueueAndLine : Prop :=
  ∀ c : Config, (State.resetWith c).rd = 0 ∧ (State.resetWith c).wr = 0 ∧ (State.resetWith c).cnt = 0 ∧
    liveWords (State.resetWith c) = [] ∧ (∀ k, Memory.read (State.resetWith c).q k = none) ∧
    (State.resetWith c).lineDir = .input

/-- The invariant, the account of the history and the order of the queue hold at reset, for any parameters. -/
def Obligations.ResetMeetsTheInvariants : Prop :=
  (∀ c : Config, Inv (State.resetWith c) ∧ History (State.resetWith c) ∧ InOrder (State.resetWith c)) ∧
  Good State.reset

/-- The invariant is kept by every step: the queue store's form and bounds, the relation of the indices (R32), live words
well-formed (R75, R103), and exactly one of a counting timer and a pending expiry (R180, R182, R183). -/
def Obligations.StepKeepsTheInvariant : Prop :=
  ∀ s t : State, Inv s → step s = .next t → Inv t

/-- R113, R173, R186. From a state that meets the invariant no step stops, whatever the fault record holds: the machine has
a next state for ever. -/
def Obligations.MachineNeverStops : Prop :=
  ∀ (s : State) (k : Nat), Inv s → ∃ t, runSteps k s = .next t ∧ Inv t

/-- The ghost history accounts for the state beside it, and every step keeps it so: DROPS counts the drops, each FAULT bit
is set exactly if a fault of its code is recorded, the line and SR are what the recorded directions, samples and clears
make of them, and events stand in the order of time (R41, R42, R43, R122, R125, R140, R141). -/
def Obligations.HistoryAccountsForTheState : Prop :=
  ∀ s t : State, Inv s → History s → step s = .next t → History t

/-! ### The pseudo-instructions -/

/-- R151, R152, R153. The words of a write bit, for each value of W1_LOW_US, and its 70 µs of armed time. -/
def Obligations.WriteBitExpansions : Prop :=
  ∀ c : Config,
    Pseudo.words c .writeBit0 = [0x003C0000#32, 0x000A0001#32] ∧
    (c.w1LowUs = 6 → Pseudo.words c .writeBit1 = [0x00060000#32, 0x00400001#32]) ∧
    (c.w1LowUs = 5 → Pseudo.words c .writeBit1 = [0x00050000#32, 0x00410001#32]) ∧
    Pseudo.expand c (.writeBit false) = Pseudo.expand c .writeBit0 ∧
    Pseudo.expand c (.writeBit true) = Pseudo.expand c .writeBit1 ∧
    armedTime c (Pseudo.expand c .writeBit0) = 70 ∧
    armedTime c (Pseudo.expand c .writeBit1) = 70

/-- 44_protocol_sequences.md sections 2 and 4 (R154, R155, R161). The words of READ_BIT and RESET with every callback
handle and without one, and the armed time up to their sample and in all. (That these times hold of all parameters rests on the
configuration's condition that the floor binds no hold of a read bit, which the model reads out of R19: log entry 23.) -/
def Obligations.ReadBitAndResetExpansions : Prop :=
  ∀ c : Config,
    (c.rdLowUs = 6 → Pseudo.words c (.readBit none) = [0x00060000#32, 0x00090001#32, 0x00370002#32] ∧
      ∀ n ≤ 255, Pseudo.words c (.readBit (some n)) =
        [0x00060000#32, 0x00090001#32, 0x00370082#32 ||| BitVec.ofNat 32 n <<< 8]) ∧
    (c.rdLowUs = 5 → Pseudo.words c (.readBit none) = [0x00050000#32, 0x000A0001#32, 0x00370002#32] ∧
      ∀ n ≤ 255, Pseudo.words c (.readBit (some n)) =
        [0x00050000#32, 0x000A0001#32, 0x00370082#32 ||| BitVec.ofNat 32 n <<< 8]) ∧
    (∀ n ≤ 255, Pseudo.words c (.reset (some n)) =
      [0x01E00000#32, 0x00460001#32, 0x019A0082#32 ||| BitVec.ofNat 32 n <<< 8]) ∧
    Pseudo.words c (.reset none) = [0x01E00000#32, 0x00460001#32, 0x019A0002#32] ∧
    ∀ cb,
      armedTime c ((Pseudo.expand c (.readBit cb)).take 2) = 15 ∧
      armedTime c (Pseudo.expand c (.readBit cb)) = 70 ∧
      armedTime c ((Pseudo.expand c (.reset cb)).take 2) = 550 ∧
      armedTime c (Pseudo.expand c (.reset cb)) = 960

/-- R156. WRITE_BYTE(v) is WRITE_BIT(v[0]) to WRITE_BIT(v[7]) in that order: 16 actions, least-significant bit first. -/
def Obligations.WriteByteGoesLeastSignificantBitFirst : Prop :=
  ∀ (c : Config) (v : Byte),
    (Pseudo.expand c (.writeByte v)).length = 16 ∧
    ∀ i < 8, ((Pseudo.expand c (.writeByte v)).drop (2 * i)).take 2 =
      Pseudo.expand c (.writeBit (v.getLsbD i))

/-- R157, R158, R159. READ_BYTE(cb=n) is ClearShiftRegister(h) if the parameters ask for it, then eight READ_BITs without a
callback, then TransferByte(0, cb=n): 25 actions and 560 µs of armed time beside the floored hold 0 of the last (565 µs with
the default floor), or 26 and max(h, MIN_HOLD_US) µs more. WAIT_RELEASE(h) is the one word of WaitForBusHigh(h), a slot of
max(h, MIN_HOLD_US) µs. (That a read bit takes 70 µs for all parameters rests on log entry 23.) -/
def Obligations.ReadByteAndWaitExpansions : Prop :=
  ∀ (c : Config) (n h : Nat),
    let byte := Pseudo.expand c (.readByte n)
    let rest := byte.drop (if c.readByteClear.isSome then 1 else 0)
    (c.readByteClear = none → byte.length = 25 ∧ armedTime c byte = 560 + c.minHoldUs) ∧
    (c.readByteClear = some h → byte.length = 26 ∧ byte.head? = some (.clearShiftRegister h none) ∧
      armedTime c byte = max h c.minHoldUs + 560 + c.minHoldUs) ∧
    (∀ i < 8, (rest.drop (3 * i)).take 3 = Pseudo.expand c (.readBit none)) ∧
    rest.drop 24 = [.transferByte 0 (some n)] ∧
    (∀ i ∈ byte.dropLast, i.callback = none) ∧
    (n ≤ 255 → (Pseudo.words c (.readByte n)).getLast? = some (0x00000083#32 ||| BitVec.ofNat 32 n <<< 8)) ∧
    (h ≤ 65535 → Pseudo.words c (.waitRelease h) = [0x00000004#32 ||| BitVec.ofNat 32 h <<< 16]) ∧
    armedTime c (Pseudo.expand c (.waitRelease h)) = max h c.minHoldUs

/-- R160. WRITE_BYTE takes 560 µs of armed time for every byte, for all parameters that the rule admits. -/
def Obligations.WriteByteTimeIsTheSameForEveryByte : Prop :=
  ∀ (c : Config) (v : Byte), armedTime c (Pseudo.expand c (.writeByte v)) = 560

/-- R145, R150. Started with the line released, every expansion leaves it released, whatever the levels of the bus and
whatever the host's functions do. (WAIT_RELEASE alone never touches the line, so it does so only in that sense: log
entry 13.) -/
def Obligations.ExpansionsEndReleased : Prop :=
  ∀ (c : Config) (p : Pseudo) (levels : List Bool) (s t : State),
    levels.length = (Pseudo.expand c p).length → s.lineDir = .input →
    runEffects (levels.zip (Pseudo.expand c p)) s = .next t → t.lineDir = .input

/-- R157. Executed from any state that meets the invariant, whatever SR held, READ_BYTE(cb=n) delivers one callback, of the
byte whose bit i is the level of the bus at the i-th of its samples. -/
def Obligations.ReadByteDeliversTheSampledByte : Prop :=
  ∀ (c : Config) (n : Nat) (levels : List Bool) (s : State), Inv s →
    levels.length = (Pseudo.expand c (.readByte n)).length →
    let acts := levels.zip (Pseudo.expand c (.readByte n))
    let bits := (acts.filter (fun a => a.2.kind = 2)).map Prod.fst
    ∃ t, runEffects acts s = .next t ∧ bits.length = 8 ∧
      sampledBits t.events = sampledBits s.events ++ bits ∧
      callbacks t.events = callbacks s.events ++ [(n, BitVec.ofNat 8 (bitsValue bits))]

/-! ### The assembler -/

/-- 30_encoding.md section 4 (R92, R93). An action line of a listed mnemonic assembles to Enc of its parts, with its hold
and its handle refused outside their ranges; a mnemonic that is not listed is refused in both forms. The digits are any nonempty
strings of decimal digits. A line that begins with `;` is a comment; `.word 0x` and the eight hexadecimal digits of a word pass
the word through; and lines that assemble to words give those words in order. (The order of the refusals, and digits of
either case in a raw word, are the model's choice, log entry 12.) -/
def Obligations.ActionLinesAssembleToTheirEncoding : Prop :=
  (∀ (name dh dn : List Char),
    dh ≠ [] → dh.all Char.isDigit = true → dn ≠ [] → dn.all Char.isDigit = true →
    (∀ k i, mnemonicKind name = some k → ofKind k (decimalValue dh) none = some i →
      assembleLine (name ++ '(' :: dh ++ [')']) =
        if decimalValue dh ≤ 65535 then .word (encode i) else .refused .holdRange) ∧
    (∀ k i, mnemonicKind name = some k → ofKind k (decimalValue dh) (some (decimalValue dn)) = some i →
      assembleLine (name ++ '(' :: dh ++ ", cb=".toList ++ dn ++ [')']) =
        if decimalValue dh ≤ 65535 then
          (if decimalValue dn ≤ 255 then .word (encode i) else .refused .handleRange)
        else .refused .holdRange) ∧
    (mnemonicKind name = none → name ≠ [] → name.all Char.isAlpha = true →
      assembleLine (name ++ '(' :: dh ++ [')']) = .refused .unknownMnemonic ∧
      assembleLine (name ++ '(' :: dh ++ ", cb=".toList ++ dn ++ [')']) = .refused .unknownMnemonic)) ∧
  (∀ text : List Char, assembleLine (';' :: text) = .comment) ∧
  (∀ (w : Word) (digits : List Char), digits.map Char.toLower = hexText w →
    assembleLine (".word 0x".toList ++ digits) = .word w) ∧
  (∀ (lines : List (List Char)) (ws : List Word), lines.map assembleLine = ws.map .word →
    assemble lines = .ok ws)

/-! ### The default parameters -/

/-- 00_scope.md section 4 (R10 to R14, R18 to R20). State.reset is the reset block of the default of every parameter that has
one, with IDLE_POLL_US and TICKS_PER_US at some values within the bounds their rules set. (That State.reset takes these, and
that nothing is bound and no move waits in it, is the model's choice: log entries 1 and 21.) -/
def Obligations.ResetHasTheDefaultParameters : Prop :=
  State.reset = State.resetWith State.reset.cfg ∧
  State.reset.cfg.cap = 500 ∧ State.reset.cfg.qdisc = .linear ∧ State.reset.cfg.minHoldUs = 5 ∧
  State.reset.cfg.w1LowUs = 6 ∧ State.reset.cfg.rdLowUs = 6 ∧ State.reset.cfg.readByteClear = none ∧
  5 ≤ State.reset.cfg.idlePollUs ∧ State.reset.cfg.idlePollUs ≤ 65535 ∧
  1 ≤ State.reset.cfg.ticksPerUs ∧ State.reset.cfg.ticksPerUs ≤ 65537 ∧
  State.reset.bindings = [] ∧ State.reset.inputs = []
end

