-- ==== Sys2Proof/Laws/Decode.lean ====
section
/-! SUPPORT. The small lemmas of the decoder: the ranges of the fields, and how well-formedness, the fault codes and the
decoder's result hang together. -/

namespace Sys2Proof

theorem holdField_lt (w : Word) : holdField w < 65536 := (w.extractLsb' 16 16).isLt

theorem cbidField_lt (w : Word) : cbidField w < 256 := (w.extractLsb' 8 8).isLt

theorem kindField_lt (w : Word) : kindField w < 8 := (w.extractLsb' 0 3).isLt

/-- A word is well-formed exactly if nothing is wrong with it. -/
theorem wfWord_eq_true_iff (w : Word) : wfWord w = true ↔ rsvdCodes w = [] := by
  simp only [wfWord, rsvdCodes, Bool.and_eq_true, Bool.or_eq_true, decide_eq_true_eq, List.append_eq_nil_iff]
  constructor
  · rintro ⟨⟨hk, hr⟩, hc⟩
    refine ⟨if_neg (by omega), if_neg ?_⟩
    rintro (h | ⟨h, h'⟩)
    · exact h hr
    · rcases hc with hc | hc
      · simp [hc] at h
      · exact h' hc
  · rintro ⟨hk, hr⟩
    have hk' : ¬ 5 < kindField w := fun h => by simp [h] at hk
    have hr' : ¬ (rsvdField w ≠ 0 ∨ (cbvField w = false ∧ cbidField w ≠ 0)) := fun h => by simp [h] at hr
    refine ⟨⟨by omega, by_contra fun h => hr' (.inl h)⟩, ?_⟩
    by_cases hv : cbvField w = true
    · exact .inl hv
    · exact .inr (by_contra fun h => hr' (.inr ⟨by simpa using hv, h⟩))

theorem wfWord_eq_false_iff (w : Word) : wfWord w = false ↔ rsvdCodes w ≠ [] := by
  rw [ne_eq, ← wfWord_eq_true_iff]; simp

/-- The six legal kind codes, and no other, stand for an action with the operands given. -/
theorem ofKind_eq_some_iff (k h : Nat) (c : Option Nat) (i : Instr) :
    ofKind k h c = some i ↔ k ≤ 5 ∧ i.kind = k ∧ i.hold = h ∧ i.callback = c := by
  constructor
  · intro hi
    unfold ofKind at hi
    split at hi <;> first | (cases hi; simp [Instr.kind, Instr.hold, Instr.callback]) | cases hi
  · rintro ⟨-, rfl, rfl, rfl⟩
    cases i <;> rfl

/-- What the decoder answers: the action the fields name, exactly for a well-formed word. -/
theorem decode_eq_action_iff (w : Word) (i : Instr) :
    decode w = .action i ↔
      wfWord w = true ∧ i.kind = kindField w ∧ i.hold = holdField w ∧ i.callback = callbackField w := by
  rw [wfWord_eq_true_iff]
  constructor
  · intro h
    unfold decode at h
    split at h
    · rename_i j hc hk
      cases h
      obtain ⟨-, h1, h2, h3⟩ := (ofKind_eq_some_iff ..).1 hk
      exact ⟨hc, h1, h2, h3⟩
    · cases h
  · rintro ⟨hc, h1, h2, h3⟩
    have hk : kindField w ≤ 5 := by
      have := (wfWord_eq_true_iff w).2 hc
      simp only [wfWord, Bool.and_eq_true, decide_eq_true_eq] at this
      exact this.1.1
    have := (ofKind_eq_some_iff (kindField w) (holdField w) (callbackField w) i).2 ⟨hk, h1, h2, h3⟩
    simp [decode, hc, this]

/-- A well-formed word decodes to an action. -/
theorem decode_of_wf {w : Word} (h : wfWord w = true) : ∃ i, decode w = .action i := by
  have hc := (wfWord_eq_true_iff w).1 h
  have hk : kindField w ≤ 5 := by
    simp only [wfWord, Bool.and_eq_true, decide_eq_true_eq] at h
    exact h.1.1
  have : ∃ i, ofKind (kindField w) (holdField w) (callbackField w) = some i := by
    have : kindField w = 0 ∨ kindField w = 1 ∨ kindField w = 2 ∨ kindField w = 3 ∨ kindField w = 4 ∨
        kindField w = 5 := by omega
    rcases this with h | h | h | h | h | h <;> rw [h] <;> exact ⟨_, rfl⟩
  obtain ⟨i, hi⟩ := this
  exact ⟨i, by simp [decode, hc, hi]⟩

/-- A word that is not well-formed decodes to what is wrong with it. -/
theorem decode_of_not_wf {w : Word} (h : wfWord w = false) : decode w = .reserved (rsvdCodes w) := by
  have hc := (wfWord_eq_false_iff w).1 h
  unfold decode
  split
  · rename_i hn _; exact absurd hn hc
  · rfl

/-! ### Bits and fields of a packed word -/

/-- Each bit of a packed word, by the layout of rule R81. -/
theorem packWord_getLsbD (k h n : Nat) (v : Bool) (i : Nat) :
    (packWord k h n v).getLsbD i =
      if i < 3 then (BitVec.ofNat 3 k).getLsbD i
      else if i < 7 then false
      else if i < 8 then v
      else if i < 16 then (BitVec.ofNat 8 n).getLsbD (i - 8)
      else (BitVec.ofNat 16 h).getLsbD (i - 16) := by
  have e1 := @BitVec.getLsbD_append (16 + 8 + 1 + 4) 3 i
    (BitVec.ofNat 16 h ++ BitVec.ofNat 8 n ++ BitVec.ofBool v ++ 0#4) (BitVec.ofNat 3 k)
  have e2 := @BitVec.getLsbD_append (16 + 8 + 1) 4 (i - 3)
    (BitVec.ofNat 16 h ++ BitVec.ofNat 8 n ++ BitVec.ofBool v) 0#4
  have e3 := @BitVec.getLsbD_append (16 + 8) 1 (i - 3 - 4)
    (BitVec.ofNat 16 h ++ BitVec.ofNat 8 n) (BitVec.ofBool v)
  have e4 := @BitVec.getLsbD_append 16 8 (i - 3 - 4 - 1) (BitVec.ofNat 16 h) (BitVec.ofNat 8 n)
  rw [e2, e3, e4] at e1
  refine Eq.trans e1 ?_
  by_cases h1 : i < 3
  · simp [h1]
  by_cases h2 : i < 7
  · simp [h1, h2, show i - 3 < 4 by omega]
  by_cases h3 : i < 8
  · simp [h1, h2, h3, show ¬ i - 3 < 4 by omega, show i - 3 - 4 = 0 by omega]
  by_cases h4 : i < 16
  · simp [h1, h2, h3, h4, show ¬ i - 3 < 4 by omega, show ¬ i - 3 - 4 < 1 by omega,
      show i - 3 - 4 - 1 = i - 8 by omega, show i - 8 < 8 by omega]
  · simp [h1, h2, h3, h4, show ¬ i - 3 < 4 by omega, show ¬ i - 3 - 4 < 1 by omega,
      show i - 3 - 4 - 1 = i - 8 by omega, show ¬ i - 8 < 8 by omega, show i - 8 - 8 = i - 16 by omega]

theorem packWord_hold (k h n : Nat) (v : Bool) :
    (packWord k h n v).extractLsb' 16 16 = BitVec.ofNat 16 h := by
  apply BitVec.eq_of_getLsbD_eq
  intro i hi
  rw [BitVec.getLsbD_extractLsb', packWord_getLsbD]
  simp only [hi, decide_true, Bool.true_and]
  rw [if_neg (by omega), if_neg (by omega), if_neg (by omega), if_neg (by omega), Nat.add_sub_cancel_left]

theorem packWord_cbid (k h n : Nat) (v : Bool) :
    (packWord k h n v).extractLsb' 8 8 = BitVec.ofNat 8 n := by
  apply BitVec.eq_of_getLsbD_eq
  intro i hi
  rw [BitVec.getLsbD_extractLsb', packWord_getLsbD]
  simp only [hi, decide_true, Bool.true_and]
  rw [if_neg (by omega), if_neg (by omega), if_neg (by omega), if_pos (by omega), Nat.add_sub_cancel_left]

theorem packWord_cbv (k h n : Nat) (v : Bool) : (packWord k h n v).getLsbD 7 = v := by
  rw [packWord_getLsbD]; simp

theorem packWord_rsvd (k h n : Nat) (v : Bool) : (packWord k h n v).extractLsb' 3 4 = 0#4 := by
  apply BitVec.eq_of_getLsbD_eq
  intro i hi
  rw [BitVec.getLsbD_extractLsb', packWord_getLsbD]
  simp only [hi, decide_true, Bool.true_and]
  rw [if_neg (by omega), if_pos (by omega), BitVec.getLsbD_zero]

theorem packWord_kind (k h n : Nat) (v : Bool) :
    (packWord k h n v).extractLsb' 0 3 = BitVec.ofNat 3 k := by
  apply BitVec.eq_of_getLsbD_eq
  intro i hi
  rw [BitVec.getLsbD_extractLsb', packWord_getLsbD]
  simp only [hi, decide_true, Bool.true_and, Nat.zero_add, if_true]

/-- Enc as one packing of the action's parts (rule R95). -/
theorem encode_eq_packWord (i : Instr) :
    encode i = packWord i.kind i.hold (i.callback.getD 0) i.callback.isSome := by
  unfold encode; cases i.callback <;> rfl

theorem kind_le_five (i : Instr) : i.kind ≤ 5 := by cases i <;> simp [Instr.kind]

/-- A word is its five fields, laid end to end (rule R81). -/
theorem packWord_of_fields (w : Word) (h : rsvdField w = 0) :
    packWord (kindField w) (holdField w) (cbidField w) (cbvField w) = w := by
  apply BitVec.eq_of_getLsbD_eq
  intro i hi
  have hr : w.extractLsb' 3 4 = 0#4 := BitVec.eq_of_toNat_eq h
  rw [packWord_getLsbD]
  unfold kindField holdField cbidField cbvField
  simp only [BitVec.ofNat_toNat, BitVec.setWidth_eq, BitVec.getLsbD_extractLsb', Nat.zero_add]
  split
  · simp [*]
  · split
    · have := congrArg (fun x => BitVec.getLsbD x (i - 3)) hr
      simp only [BitVec.getLsbD_extractLsb', BitVec.getLsbD_zero, show i - 3 < 4 by omega, decide_true,
        Bool.true_and, show 3 + (i - 3) = i by omega] at this
      exact this.symm
    · split
      · rw [show i = 7 by omega]
      · split
        · simp only [show i - 8 < 8 by omega, decide_true, Bool.true_and, show 8 + (i - 8) = i by omega]
        · simp only [show i - 16 < 16 by omega, decide_true, Bool.true_and, show 16 + (i - 16) = i by omega]

/-- WF in the bits of rule R87. -/
theorem wfWord_iff_bits (w : Word) : wfWord w = true ↔
    (w.extractLsb' 0 3).toNat ≤ 5 ∧ w.extractLsb' 3 4 = 0#4 ∧
      (w.getLsbD 7 = true ∨ w.extractLsb' 8 8 = 0#8) := by
  have e1 : w.extractLsb' 3 4 = 0#4 ↔ rsvdField w = 0 := by rw [← BitVec.toNat_inj]; rfl
  have e2 : w.extractLsb' 8 8 = 0#8 ↔ cbidField w = 0 := by rw [← BitVec.toNat_inj]; rfl
  rw [e1, e2]
  show _ ↔ kindField w ≤ 5 ∧ rsvdField w = 0 ∧ (cbvField w = true ∨ cbidField w = 0)
  simp only [wfWord, Bool.and_eq_true, Bool.or_eq_true, decide_eq_true_eq, and_assoc]

/-- The codes in the bits of rules R88 and R89. -/
theorem mem_rsvdCodes_iff_bits (w : Word) :
    (FaultCode.rsvdKind ∈ rsvdCodes w ↔ 5 < (w.extractLsb' 0 3).toNat) ∧
    (FaultCode.rsvdBits ∈ rsvdCodes w ↔
      w.extractLsb' 3 4 ≠ 0#4 ∨ (w.getLsbD 7 = false ∧ w.extractLsb' 8 8 ≠ 0#8)) := by
  have e1 : w.extractLsb' 3 4 ≠ 0#4 ↔ rsvdField w ≠ 0 := by rw [ne_eq, ← BitVec.toNat_inj]; rfl
  have e2 : w.extractLsb' 8 8 ≠ 0#8 ↔ cbidField w ≠ 0 := by rw [ne_eq, ← BitVec.toNat_inj]; rfl
  rw [e1, e2]
  show _ ∧ (_ ↔ rsvdField w ≠ 0 ∨ (cbvField w = false ∧ cbidField w ≠ 0))
  show (_ ↔ 5 < kindField w) ∧ _
  unfold rsvdCodes
  by_cases h1 : 5 < kindField w <;>
    by_cases h2 : rsvdField w ≠ 0 ∨ (cbvField w = false ∧ cbidField w ≠ 0) <;>
      simp only [h1, h2, if_true, if_false] <;> simp

end Sys2Proof
end

