-- ==== Sys2Proof/Laws/Memory.lean ====
section
/-! SUPPORT. The laws of the indexed store: a read after a write, and that a write keeps the canonical form and the
bound on the indices. -/

namespace Sys2Proof.Machine

variable {α : Type}

@[simp] theorem Memory.read_nil (i : Nat) : Memory.read ([] : Memory α) i = none := rfl

/-- What a store reads at the slot just written. -/
@[simp] theorem Memory.read_write_same (m : Memory α) (i : Nat) (v : α) :
    Memory.read (Memory.write m i v) i = some v := by
  induction m with
  | nil => simp [Memory.write, Memory.read]
  | cons e rest ih =>
    obtain ⟨j, x⟩ := e
    simp only [Memory.write]
    split
    · simp [Memory.read]
    · split
      · simp [Memory.read]
      · rename_i h
        simp [Memory.read, Ne.symm h, ih]

/-- A write leaves every other slot alone. -/
theorem Memory.read_write_other (m : Memory α) (i k : Nat) (v : α) (h : k ≠ i) :
    Memory.read (Memory.write m i v) k = Memory.read m k := by
  induction m with
  | nil => simp [Memory.write, Memory.read, Ne.symm h]
  | cons e rest ih =>
    obtain ⟨j, x⟩ := e
    simp only [Memory.write]
    split
    · simp [Memory.read, Ne.symm h]
    · split
      · rename_i hij
        simp [Memory.read, ← hij, Ne.symm h]
      · simp only [Memory.read, ih]

/-- Both read laws in one equation. -/
theorem Memory.read_write (m : Memory α) (i k : Nat) (v : α) :
    Memory.read (Memory.write m i v) k = if k = i then some v else Memory.read m k := by
  split
  · subst_vars; simp
  · exact Memory.read_write_other m i k v ‹_›

/-- The entries of a store after a write: the new one, and old ones. -/
theorem Memory.mem_write {m : Memory α} {i : Nat} {v : α} {e : Nat × α}
    (h : e ∈ Memory.write m i v) : e = (i, v) ∨ e ∈ m := by
  induction m with
  | nil => simpa [Memory.write] using h
  | cons x rest ih =>
    simp only [Memory.write] at h
    split at h
    · simpa using h
    · split at h
      · rcases List.mem_cons.1 h with rfl | h
        · exact .inl rfl
        · exact .inr (List.mem_cons_of_mem _ h)
      · rcases List.mem_cons.1 h with rfl | h
        · exact .inr (List.mem_cons_self ..)
        · exact (ih h).imp id (List.mem_cons_of_mem _)

/-- A write keeps the canonical form. -/
theorem Memory.wf_write {m : Memory α} (h : Memory.wf m) (i : Nat) (v : α) :
    Memory.wf (Memory.write m i v) := by
  induction m with
  | nil => simp [Memory.write]
  | cons e rest ih =>
    obtain ⟨hlt, hrest⟩ := List.pairwise_cons.1 h
    simp only [Memory.write]
    split
    · rename_i hi
      refine List.pairwise_cons.2 ⟨fun b hb => ?_, h⟩
      rcases List.mem_cons.1 hb with rfl | hb
      · exact hi
      · exact hi.trans (hlt b hb)
    · split
      · rename_i hij
        exact List.pairwise_cons.2 ⟨fun b hb => by simpa [hij] using hlt b hb, hrest⟩
      · refine List.pairwise_cons.2 ⟨fun b hb => ?_, ih hrest⟩
        rcases Memory.mem_write hb with rfl | hb
        · simp only; omega
        · exact hlt b hb

end Sys2Proof.Machine
end

