-- ==== Sys2Proof/Laws/Operands.lean ====
section
/-! SUPPORT. The operand arithmetic: the shift register as a number, an armed duration that fits the counter, and the
FAULT bits a raise sets. -/

namespace Sys2Proof.Machine

/-- The shift as arithmetic: the new bit weighs 128, the others halve (rule R122). -/
theorem shiftIn_toNat (b : Bool) (v : Byte) : (shiftIn b v).toNat = 128 * b.toNat + v.toNat / 2 := by
  revert b v; decide

/-- A hold is armed for between 1 and 65535 µs (rules R12, R105, R181). -/
theorem armedUs_range (c : Config) (w : Word) :
    1 ≤ armedUs c (holdField w) ∧ armedUs c (holdField w) ≤ 65535 := by
  have := holdField_lt w
  have := c.minHold_pos
  have := c.idlePoll_range
  unfold armedUs
  omega

theorem idlePoll_between (c : Config) : 1 ≤ c.idlePollUs ∧ c.idlePollUs ≤ 65535 := by
  have := c.minHold_pos
  have := c.idlePoll_range
  omega

/-- The count of an armed duration "fits in 32 bits by R14" and is not 0 (rule R181). -/
theorem ticksOf_fits (c : Config) {us : Nat} (h1 : 1 ≤ us) (h2 : us ≤ 65535) :
    (BitVec.ofNat 32 (ticksOf c us)).toNat = us * c.ticksPerUs ∧ BitVec.ofNat 32 (ticksOf c us) ≠ 0#32 := by
  have ⟨a, b⟩ := c.ticks_range
  have h3 : us * c.ticksPerUs ≤ 65535 * c.ticksPerUs := Nat.mul_le_mul_right _ h2
  have h4 : 1 * 1 ≤ us * c.ticksPerUs := Nat.mul_le_mul h1 a
  have h5 : (BitVec.ofNat 32 (ticksOf c us)).toNat = us * c.ticksPerUs := by
    simp only [ticksOf, BitVec.toNat_ofNat]; omega
  refine ⟨h5, fun h => ?_⟩
  rw [h] at h5
  simp only [BitVec.toNat_ofNat, Nat.zero_mod] at h5
  omega

/-- The bit that `raise Fault(code)` sets, and no other (rules R41, R170). -/
theorem or_bit_getLsbD (f : BitVec 2) (c : FaultCode) (i : Nat) :
    (f ||| FaultCode.bit c).getLsbD i = true ↔
      f.getLsbD i = true ∨ (i = 0 ∧ c = .rsvdKind) ∨ (i = 1 ∧ c = .rsvdBits) := by
  rw [BitVec.getLsbD_or, Bool.or_eq_true]
  refine or_congr Iff.rfl ?_
  match i with
  | 0 => cases c <;> simp [FaultCode.bit]
  | 1 => cases c <;> simp [FaultCode.bit]
  | n + 2 => simp

/-- Each FAULT bit after the raises of a set of codes (rules R100, R180). -/
theorem raiseFaults_bits (cs : List FaultCode) (s : State) :
    ((raiseFaults cs s).fault.getLsbD 0 = true ↔ s.fault.getLsbD 0 = true ∨ FaultCode.rsvdKind ∈ cs) ∧
    ((raiseFaults cs s).fault.getLsbD 1 = true ↔ s.fault.getLsbD 1 = true ∨ FaultCode.rsvdBits ∈ cs) := by
  induction cs generalizing s with
  | nil => simp [raiseFaults]
  | cons c cs ih =>
    have := ih (raiseFault c s)
    rw [raiseFaults, this.1, this.2]
    simp only [raiseFault, or_bit_getLsbD]
    cases c <;> simp

/-- A raise changes the FAULT record only (rule R170). -/
theorem raiseFaults_eq (cs : List FaultCode) (s : State) :
    raiseFaults cs s = { s with fault := (raiseFaults cs s).fault } := by
  induction cs generalizing s with
  | nil => rfl
  | cons c cs ih => rw [raiseFaults, ih (raiseFault c s)]; rfl

end Sys2Proof.Machine
end

