-- ==== Sys2Proof/Laws/PerInstr.lean ====
section
/-! SUPPORT. What holds of every instruction as syntax, one lemma a constructor: the word Enc gives it carries its own KIND
code, which is not a reserved one (rules R82, R88, R95). -/

namespace Sys2Proof.Laws.EncodesKind

/-- The KIND field of the encoding is the instruction's code, one of 0 to 5. -/
def Statement (i : Instr) : Prop := kindField (encode i) = i.kind ∧ i.kind ≤ 5

theorem of_any (i : Instr) : Statement i := by
  have h := kind_le_five i
  refine ⟨?_, h⟩
  rw [kindField, encode_eq_packWord, packWord_kind, BitVec.toNat_ofNat]
  omega

theorem busLow (hold : Nat) (cb : Option Nat) : Statement (.busLow hold cb) := of_any _
theorem releaseBus (hold : Nat) (cb : Option Nat) : Statement (.releaseBus hold cb) := of_any _
theorem sampleBit (hold : Nat) (cb : Option Nat) : Statement (.sampleBit hold cb) := of_any _
theorem transferByte (hold : Nat) (cb : Option Nat) : Statement (.transferByte hold cb) := of_any _
theorem waitForBusHigh (hold : Nat) (cb : Option Nat) : Statement (.waitForBusHigh hold cb) := of_any _
theorem clearShiftRegister (hold : Nat) (cb : Option Nat) : Statement (.clearShiftRegister hold cb) := of_any _

end Sys2Proof.Laws.EncodesKind
end

