-- ==== Sys2Proof/Laws/State.lean ====
section
/-! SUPPORT. One lemma for each field of the state and each plain update of Ops.lean: what the field is afterwards. No later
proof unfolds a record update. -/

namespace Sys2Proof.Machine

/-! ### log -/

@[simp] theorem log_cfg (e : Event) (s : State) : (log e s).cfg = s.cfg := rfl
@[simp] theorem log_q (e : Event) (s : State) : (log e s).q = s.q := rfl
@[simp] theorem log_rd (e : Event) (s : State) : (log e s).rd = s.rd := rfl
@[simp] theorem log_wr (e : Event) (s : State) : (log e s).wr = s.wr := rfl
@[simp] theorem log_cnt (e : Event) (s : State) : (log e s).cnt = s.cnt := rfl
@[simp] theorem log_sr (e : Event) (s : State) : (log e s).sr = s.sr := rfl
@[simp] theorem log_lineDir (e : Event) (s : State) : (log e s).lineDir = s.lineDir := rfl
@[simp] theorem log_tmrCount (e : Event) (s : State) : (log e s).tmrCount = s.tmrCount := rfl
@[simp] theorem log_tmrArmed (e : Event) (s : State) : (log e s).tmrArmed = s.tmrArmed := rfl
@[simp] theorem log_tmrPend (e : Event) (s : State) : (log e s).tmrPend = s.tmrPend := rfl
@[simp] theorem log_fault (e : Event) (s : State) : (log e s).fault = s.fault := rfl
@[simp] theorem log_drops (e : Event) (s : State) : (log e s).drops = s.drops := rfl
@[simp] theorem log_events (e : Event) (s : State) : (log e s).events = s.events ++ [(s.now, e)] := rfl
@[simp] theorem log_now (e : Event) (s : State) : (log e s).now = s.now := rfl
@[simp] theorem log_lat (e : Event) (s : State) : (log e s).lat = s.lat := rfl
@[simp] theorem log_env (e : Event) (s : State) : (log e s).env = s.env := rfl
@[simp] theorem log_draws (e : Event) (s : State) : (log e s).draws = s.draws := rfl
@[simp] theorem log_bindings (e : Event) (s : State) : (log e s).bindings = s.bindings := rfl
@[simp] theorem log_inputs (e : Event) (s : State) : (log e s).inputs = s.inputs := rfl

/-! ### raiseFault -/

@[simp] theorem raiseFault_cfg (c : FaultCode) (s : State) : (raiseFault c s).cfg = s.cfg := rfl
@[simp] theorem raiseFault_q (c : FaultCode) (s : State) : (raiseFault c s).q = s.q := rfl
@[simp] theorem raiseFault_rd (c : FaultCode) (s : State) : (raiseFault c s).rd = s.rd := rfl
@[simp] theorem raiseFault_wr (c : FaultCode) (s : State) : (raiseFault c s).wr = s.wr := rfl
@[simp] theorem raiseFault_cnt (c : FaultCode) (s : State) : (raiseFault c s).cnt = s.cnt := rfl
@[simp] theorem raiseFault_sr (c : FaultCode) (s : State) : (raiseFault c s).sr = s.sr := rfl
@[simp] theorem raiseFault_lineDir (c : FaultCode) (s : State) : (raiseFault c s).lineDir = s.lineDir := rfl
@[simp] theorem raiseFault_tmrCount (c : FaultCode) (s : State) : (raiseFault c s).tmrCount = s.tmrCount := rfl
@[simp] theorem raiseFault_tmrArmed (c : FaultCode) (s : State) : (raiseFault c s).tmrArmed = s.tmrArmed := rfl
@[simp] theorem raiseFault_tmrPend (c : FaultCode) (s : State) : (raiseFault c s).tmrPend = s.tmrPend := rfl
@[simp] theorem raiseFault_fault (c : FaultCode) (s : State) : (raiseFault c s).fault = s.fault ||| FaultCode.bit c := rfl
@[simp] theorem raiseFault_drops (c : FaultCode) (s : State) : (raiseFault c s).drops = s.drops := rfl
@[simp] theorem raiseFault_events (c : FaultCode) (s : State) : (raiseFault c s).events = s.events := rfl
@[simp] theorem raiseFault_now (c : FaultCode) (s : State) : (raiseFault c s).now = s.now := rfl
@[simp] theorem raiseFault_lat (c : FaultCode) (s : State) : (raiseFault c s).lat = s.lat := rfl
@[simp] theorem raiseFault_env (c : FaultCode) (s : State) : (raiseFault c s).env = s.env := rfl
@[simp] theorem raiseFault_draws (c : FaultCode) (s : State) : (raiseFault c s).draws = s.draws := rfl
@[simp] theorem raiseFault_bindings (c : FaultCode) (s : State) : (raiseFault c s).bindings = s.bindings := rfl
@[simp] theorem raiseFault_inputs (c : FaultCode) (s : State) : (raiseFault c s).inputs = s.inputs := rfl

/-! ### driveLow -/

@[simp] theorem driveLow_cfg (s : State) : (driveLow s).cfg = s.cfg := rfl
@[simp] theorem driveLow_q (s : State) : (driveLow s).q = s.q := rfl
@[simp] theorem driveLow_rd (s : State) : (driveLow s).rd = s.rd := rfl
@[simp] theorem driveLow_wr (s : State) : (driveLow s).wr = s.wr := rfl
@[simp] theorem driveLow_cnt (s : State) : (driveLow s).cnt = s.cnt := rfl
@[simp] theorem driveLow_sr (s : State) : (driveLow s).sr = s.sr := rfl
@[simp] theorem driveLow_lineDir (s : State) : (driveLow s).lineDir = .outputLow := rfl
@[simp] theorem driveLow_tmrCount (s : State) : (driveLow s).tmrCount = s.tmrCount := rfl
@[simp] theorem driveLow_tmrArmed (s : State) : (driveLow s).tmrArmed = s.tmrArmed := rfl
@[simp] theorem driveLow_tmrPend (s : State) : (driveLow s).tmrPend = s.tmrPend := rfl
@[simp] theorem driveLow_fault (s : State) : (driveLow s).fault = s.fault := rfl
@[simp] theorem driveLow_drops (s : State) : (driveLow s).drops = s.drops := rfl
@[simp] theorem driveLow_events (s : State) : (driveLow s).events = s.events ++ [(s.now, .dir .outputLow)] := rfl
@[simp] theorem driveLow_now (s : State) : (driveLow s).now = s.now := rfl
@[simp] theorem driveLow_lat (s : State) : (driveLow s).lat = s.lat := rfl
@[simp] theorem driveLow_env (s : State) : (driveLow s).env = s.env := rfl
@[simp] theorem driveLow_draws (s : State) : (driveLow s).draws = s.draws := rfl
@[simp] theorem driveLow_bindings (s : State) : (driveLow s).bindings = s.bindings := rfl
@[simp] theorem driveLow_inputs (s : State) : (driveLow s).inputs = s.inputs := rfl

/-! ### release -/

@[simp] theorem release_cfg (s : State) : (release s).cfg = s.cfg := rfl
@[simp] theorem release_q (s : State) : (release s).q = s.q := rfl
@[simp] theorem release_rd (s : State) : (release s).rd = s.rd := rfl
@[simp] theorem release_wr (s : State) : (release s).wr = s.wr := rfl
@[simp] theorem release_cnt (s : State) : (release s).cnt = s.cnt := rfl
@[simp] theorem release_sr (s : State) : (release s).sr = s.sr := rfl
@[simp] theorem release_lineDir (s : State) : (release s).lineDir = .input := rfl
@[simp] theorem release_tmrCount (s : State) : (release s).tmrCount = s.tmrCount := rfl
@[simp] theorem release_tmrArmed (s : State) : (release s).tmrArmed = s.tmrArmed := rfl
@[simp] theorem release_tmrPend (s : State) : (release s).tmrPend = s.tmrPend := rfl
@[simp] theorem release_fault (s : State) : (release s).fault = s.fault := rfl
@[simp] theorem release_drops (s : State) : (release s).drops = s.drops := rfl
@[simp] theorem release_events (s : State) : (release s).events = s.events ++ [(s.now, .dir .input)] := rfl
@[simp] theorem release_now (s : State) : (release s).now = s.now := rfl
@[simp] theorem release_lat (s : State) : (release s).lat = s.lat := rfl
@[simp] theorem release_env (s : State) : (release s).env = s.env := rfl
@[simp] theorem release_draws (s : State) : (release s).draws = s.draws := rfl
@[simp] theorem release_bindings (s : State) : (release s).bindings = s.bindings := rfl
@[simp] theorem release_inputs (s : State) : (release s).inputs = s.inputs := rfl

/-! ### sample -/

@[simp] theorem sample_cfg (s : State) : (sample s).cfg = s.cfg := rfl
@[simp] theorem sample_q (s : State) : (sample s).q = s.q := rfl
@[simp] theorem sample_rd (s : State) : (sample s).rd = s.rd := rfl
@[simp] theorem sample_wr (s : State) : (sample s).wr = s.wr := rfl
@[simp] theorem sample_cnt (s : State) : (sample s).cnt = s.cnt := rfl
@[simp] theorem sample_sr (s : State) : (sample s).sr = s.sr := rfl
@[simp] theorem sample_lineDir (s : State) : (sample s).lineDir = s.lineDir := rfl
@[simp] theorem sample_tmrCount (s : State) : (sample s).tmrCount = s.tmrCount := rfl
@[simp] theorem sample_tmrArmed (s : State) : (sample s).tmrArmed = s.tmrArmed := rfl
@[simp] theorem sample_tmrPend (s : State) : (sample s).tmrPend = s.tmrPend := rfl
@[simp] theorem sample_fault (s : State) : (sample s).fault = s.fault := rfl
@[simp] theorem sample_drops (s : State) : (sample s).drops = s.drops := rfl
@[simp] theorem sample_events (s : State) : (sample s).events = s.events ++ [(s.now, .sampled (level s))] := rfl
@[simp] theorem sample_now (s : State) : (sample s).now = s.now := rfl
@[simp] theorem sample_lat (s : State) : (sample s).lat = s.lat := rfl
@[simp] theorem sample_env (s : State) : (sample s).env = s.env := rfl
@[simp] theorem sample_draws (s : State) : (sample s).draws = s.draws := rfl
@[simp] theorem sample_bindings (s : State) : (sample s).bindings = s.bindings := rfl
@[simp] theorem sample_inputs (s : State) : (sample s).inputs = s.inputs := rfl

/-! ### setShiftRegister -/

@[simp] theorem setShiftRegister_cfg (v : Byte) (s : State) : (setShiftRegister v s).cfg = s.cfg := rfl
@[simp] theorem setShiftRegister_q (v : Byte) (s : State) : (setShiftRegister v s).q = s.q := rfl
@[simp] theorem setShiftRegister_rd (v : Byte) (s : State) : (setShiftRegister v s).rd = s.rd := rfl
@[simp] theorem setShiftRegister_wr (v : Byte) (s : State) : (setShiftRegister v s).wr = s.wr := rfl
@[simp] theorem setShiftRegister_cnt (v : Byte) (s : State) : (setShiftRegister v s).cnt = s.cnt := rfl
@[simp] theorem setShiftRegister_sr (v : Byte) (s : State) : (setShiftRegister v s).sr = v := rfl
@[simp] theorem setShiftRegister_lineDir (v : Byte) (s : State) : (setShiftRegister v s).lineDir = s.lineDir := rfl
@[simp] theorem setShiftRegister_tmrCount (v : Byte) (s : State) : (setShiftRegister v s).tmrCount = s.tmrCount := rfl
@[simp] theorem setShiftRegister_tmrArmed (v : Byte) (s : State) : (setShiftRegister v s).tmrArmed = s.tmrArmed := rfl
@[simp] theorem setShiftRegister_tmrPend (v : Byte) (s : State) : (setShiftRegister v s).tmrPend = s.tmrPend := rfl
@[simp] theorem setShiftRegister_fault (v : Byte) (s : State) : (setShiftRegister v s).fault = s.fault := rfl
@[simp] theorem setShiftRegister_drops (v : Byte) (s : State) : (setShiftRegister v s).drops = s.drops := rfl
@[simp] theorem setShiftRegister_events (v : Byte) (s : State) : (setShiftRegister v s).events = s.events := rfl
@[simp] theorem setShiftRegister_now (v : Byte) (s : State) : (setShiftRegister v s).now = s.now := rfl
@[simp] theorem setShiftRegister_lat (v : Byte) (s : State) : (setShiftRegister v s).lat = s.lat := rfl
@[simp] theorem setShiftRegister_env (v : Byte) (s : State) : (setShiftRegister v s).env = s.env := rfl
@[simp] theorem setShiftRegister_draws (v : Byte) (s : State) : (setShiftRegister v s).draws = s.draws := rfl
@[simp] theorem setShiftRegister_bindings (v : Byte) (s : State) : (setShiftRegister v s).bindings = s.bindings := rfl
@[simp] theorem setShiftRegister_inputs (v : Byte) (s : State) : (setShiftRegister v s).inputs = s.inputs := rfl

/-! ### arm -/

@[simp] theorem arm_cfg (us : Nat) (s : State) : (arm us s).cfg = s.cfg := rfl
@[simp] theorem arm_q (us : Nat) (s : State) : (arm us s).q = s.q := rfl
@[simp] theorem arm_rd (us : Nat) (s : State) : (arm us s).rd = s.rd := rfl
@[simp] theorem arm_wr (us : Nat) (s : State) : (arm us s).wr = s.wr := rfl
@[simp] theorem arm_cnt (us : Nat) (s : State) : (arm us s).cnt = s.cnt := rfl
@[simp] theorem arm_sr (us : Nat) (s : State) : (arm us s).sr = s.sr := rfl
@[simp] theorem arm_lineDir (us : Nat) (s : State) : (arm us s).lineDir = s.lineDir := rfl
@[simp] theorem arm_tmrCount (us : Nat) (s : State) : (arm us s).tmrCount = BitVec.ofNat 32 (ticksOf s.cfg us) := rfl
@[simp] theorem arm_tmrArmed (us : Nat) (s : State) : (arm us s).tmrArmed = true := rfl
@[simp] theorem arm_tmrPend (us : Nat) (s : State) : (arm us s).tmrPend = s.tmrPend := rfl
@[simp] theorem arm_fault (us : Nat) (s : State) : (arm us s).fault = s.fault := rfl
@[simp] theorem arm_drops (us : Nat) (s : State) : (arm us s).drops = s.drops := rfl
@[simp] theorem arm_events (us : Nat) (s : State) : (arm us s).events = s.events ++ [(s.now, .armed us)] := rfl
@[simp] theorem arm_now (us : Nat) (s : State) : (arm us s).now = s.now := rfl
@[simp] theorem arm_lat (us : Nat) (s : State) : (arm us s).lat = s.lat := rfl
@[simp] theorem arm_env (us : Nat) (s : State) : (arm us s).env = s.env := rfl
@[simp] theorem arm_draws (us : Nat) (s : State) : (arm us s).draws = s.draws := rfl
@[simp] theorem arm_bindings (us : Nat) (s : State) : (arm us s).bindings = s.bindings := rfl
@[simp] theorem arm_inputs (us : Nat) (s : State) : (arm us s).inputs = s.inputs := rfl

/-! ### acknowledge -/

@[simp] theorem acknowledge_cfg (s : State) : (acknowledge s).cfg = s.cfg := rfl
@[simp] theorem acknowledge_q (s : State) : (acknowledge s).q = s.q := rfl
@[simp] theorem acknowledge_rd (s : State) : (acknowledge s).rd = s.rd := rfl
@[simp] theorem acknowledge_wr (s : State) : (acknowledge s).wr = s.wr := rfl
@[simp] theorem acknowledge_cnt (s : State) : (acknowledge s).cnt = s.cnt := rfl
@[simp] theorem acknowledge_sr (s : State) : (acknowledge s).sr = s.sr := rfl
@[simp] theorem acknowledge_lineDir (s : State) : (acknowledge s).lineDir = s.lineDir := rfl
@[simp] theorem acknowledge_tmrCount (s : State) : (acknowledge s).tmrCount = s.tmrCount := rfl
@[simp] theorem acknowledge_tmrArmed (s : State) : (acknowledge s).tmrArmed = s.tmrArmed := rfl
@[simp] theorem acknowledge_tmrPend (s : State) : (acknowledge s).tmrPend = false := rfl
@[simp] theorem acknowledge_fault (s : State) : (acknowledge s).fault = s.fault := rfl
@[simp] theorem acknowledge_drops (s : State) : (acknowledge s).drops = s.drops := rfl
@[simp] theorem acknowledge_events (s : State) : (acknowledge s).events = s.events := rfl
@[simp] theorem acknowledge_now (s : State) : (acknowledge s).now = s.now := rfl
@[simp] theorem acknowledge_lat (s : State) : (acknowledge s).lat = s.lat := rfl
@[simp] theorem acknowledge_env (s : State) : (acknowledge s).env = s.env := rfl
@[simp] theorem acknowledge_draws (s : State) : (acknowledge s).draws = s.draws := rfl
@[simp] theorem acknowledge_bindings (s : State) : (acknowledge s).bindings = s.bindings := rfl
@[simp] theorem acknowledge_inputs (s : State) : (acknowledge s).inputs = s.inputs := rfl

/-! ### expire -/

@[simp] theorem expire_cfg (s : State) : (expire s).cfg = s.cfg := rfl
@[simp] theorem expire_q (s : State) : (expire s).q = s.q := rfl
@[simp] theorem expire_rd (s : State) : (expire s).rd = s.rd := rfl
@[simp] theorem expire_wr (s : State) : (expire s).wr = s.wr := rfl
@[simp] theorem expire_cnt (s : State) : (expire s).cnt = s.cnt := rfl
@[simp] theorem expire_sr (s : State) : (expire s).sr = s.sr := rfl
@[simp] theorem expire_lineDir (s : State) : (expire s).lineDir = s.lineDir := rfl
@[simp] theorem expire_tmrCount (s : State) : (expire s).tmrCount = s.tmrCount := rfl
@[simp] theorem expire_tmrArmed (s : State) : (expire s).tmrArmed = false := rfl
@[simp] theorem expire_tmrPend (s : State) : (expire s).tmrPend = true := rfl
@[simp] theorem expire_fault (s : State) : (expire s).fault = s.fault := rfl
@[simp] theorem expire_drops (s : State) : (expire s).drops = s.drops := rfl
@[simp] theorem expire_events (s : State) : (expire s).events = s.events := rfl
@[simp] theorem expire_now (s : State) : (expire s).now = s.now := rfl
@[simp] theorem expire_lat (s : State) : (expire s).lat = Config.latencyDraw s.draws := rfl
@[simp] theorem expire_env (s : State) : (expire s).env = s.env := rfl
@[simp] theorem expire_draws (s : State) : (expire s).draws = s.draws := rfl
@[simp] theorem expire_bindings (s : State) : (expire s).bindings = s.bindings := rfl
@[simp] theorem expire_inputs (s : State) : (expire s).inputs = s.inputs := rfl

/-! ### advance -/

@[simp] theorem advance_cfg (s : State) : (advance s).cfg = s.cfg := rfl
@[simp] theorem advance_q (s : State) : (advance s).q = s.q := rfl
@[simp] theorem advance_rd (s : State) : (advance s).rd = headAfterAdvance s := rfl
@[simp] theorem advance_wr (s : State) : (advance s).wr = tailAfterAdvance s := rfl
@[simp] theorem advance_cnt (s : State) : (advance s).cnt = s.cnt - 1 := rfl
@[simp] theorem advance_sr (s : State) : (advance s).sr = s.sr := rfl
@[simp] theorem advance_lineDir (s : State) : (advance s).lineDir = s.lineDir := rfl
@[simp] theorem advance_tmrCount (s : State) : (advance s).tmrCount = s.tmrCount := rfl
@[simp] theorem advance_tmrArmed (s : State) : (advance s).tmrArmed = s.tmrArmed := rfl
@[simp] theorem advance_tmrPend (s : State) : (advance s).tmrPend = s.tmrPend := rfl
@[simp] theorem advance_fault (s : State) : (advance s).fault = s.fault := rfl
@[simp] theorem advance_drops (s : State) : (advance s).drops = s.drops := rfl
@[simp] theorem advance_events (s : State) : (advance s).events = s.events := rfl
@[simp] theorem advance_now (s : State) : (advance s).now = s.now := rfl
@[simp] theorem advance_lat (s : State) : (advance s).lat = s.lat := rfl
@[simp] theorem advance_env (s : State) : (advance s).env = s.env := rfl
@[simp] theorem advance_draws (s : State) : (advance s).draws = s.draws := rfl
@[simp] theorem advance_bindings (s : State) : (advance s).bindings = s.bindings := rfl
@[simp] theorem advance_inputs (s : State) : (advance s).inputs = s.inputs := rfl

/-! ### append -/

@[simp] theorem append_cfg (w : Word) (s : State) : (append w s).cfg = s.cfg := rfl
@[simp] theorem append_q (w : Word) (s : State) : (append w s).q = Memory.write s.q s.wr w := rfl
@[simp] theorem append_rd (w : Word) (s : State) : (append w s).rd = s.rd := rfl
@[simp] theorem append_wr (w : Word) (s : State) : (append w s).wr = nextSlot s.cfg s.wr := rfl
@[simp] theorem append_cnt (w : Word) (s : State) : (append w s).cnt = s.cnt + 1 := rfl
@[simp] theorem append_sr (w : Word) (s : State) : (append w s).sr = s.sr := rfl
@[simp] theorem append_lineDir (w : Word) (s : State) : (append w s).lineDir = s.lineDir := rfl
@[simp] theorem append_tmrCount (w : Word) (s : State) : (append w s).tmrCount = s.tmrCount := rfl
@[simp] theorem append_tmrArmed (w : Word) (s : State) : (append w s).tmrArmed = s.tmrArmed := rfl
@[simp] theorem append_tmrPend (w : Word) (s : State) : (append w s).tmrPend = s.tmrPend := rfl
@[simp] theorem append_fault (w : Word) (s : State) : (append w s).fault = s.fault := rfl
@[simp] theorem append_drops (w : Word) (s : State) : (append w s).drops = s.drops := rfl
@[simp] theorem append_events (w : Word) (s : State) : (append w s).events = s.events ++ [(s.now, .enqueued w)] := rfl
@[simp] theorem append_now (w : Word) (s : State) : (append w s).now = s.now := rfl
@[simp] theorem append_lat (w : Word) (s : State) : (append w s).lat = s.lat := rfl
@[simp] theorem append_env (w : Word) (s : State) : (append w s).env = s.env := rfl
@[simp] theorem append_draws (w : Word) (s : State) : (append w s).draws = s.draws := rfl
@[simp] theorem append_bindings (w : Word) (s : State) : (append w s).bindings = s.bindings := rfl
@[simp] theorem append_inputs (w : Word) (s : State) : (append w s).inputs = s.inputs := rfl

/-! ### raiseFaults -/

@[simp] theorem raiseFaults_cfg (cs : List FaultCode) (s : State) : (raiseFaults cs s).cfg = s.cfg := by
  induction cs generalizing s with
  | nil => rfl
  | cons c cs ih => exact ih (raiseFault c s)
@[simp] theorem raiseFaults_q (cs : List FaultCode) (s : State) : (raiseFaults cs s).q = s.q := by
  induction cs generalizing s with
  | nil => rfl
  | cons c cs ih => exact ih (raiseFault c s)
@[simp] theorem raiseFaults_rd (cs : List FaultCode) (s : State) : (raiseFaults cs s).rd = s.rd := by
  induction cs generalizing s with
  | nil => rfl
  | cons c cs ih => exact ih (raiseFault c s)
@[simp] theorem raiseFaults_wr (cs : List FaultCode) (s : State) : (raiseFaults cs s).wr = s.wr := by
  induction cs generalizing s with
  | nil => rfl
  | cons c cs ih => exact ih (raiseFault c s)
@[simp] theorem raiseFaults_cnt (cs : List FaultCode) (s : State) : (raiseFaults cs s).cnt = s.cnt := by
  induction cs generalizing s with
  | nil => rfl
  | cons c cs ih => exact ih (raiseFault c s)
@[simp] theorem raiseFaults_sr (cs : List FaultCode) (s : State) : (raiseFaults cs s).sr = s.sr := by
  induction cs generalizing s with
  | nil => rfl
  | cons c cs ih => exact ih (raiseFault c s)
@[simp] theorem raiseFaults_lineDir (cs : List FaultCode) (s : State) : (raiseFaults cs s).lineDir = s.lineDir := by
  induction cs generalizing s with
  | nil => rfl
  | cons c cs ih => exact ih (raiseFault c s)
@[simp] theorem raiseFaults_tmrCount (cs : List FaultCode) (s : State) : (raiseFaults cs s).tmrCount = s.tmrCount := by
  induction cs generalizing s with
  | nil => rfl
  | cons c cs ih => exact ih (raiseFault c s)
@[simp] theorem raiseFaults_tmrArmed (cs : List FaultCode) (s : State) : (raiseFaults cs s).tmrArmed = s.tmrArmed := by
  induction cs generalizing s with
  | nil => rfl
  | cons c cs ih => exact ih (raiseFault c s)
@[simp] theorem raiseFaults_tmrPend (cs : List FaultCode) (s : State) : (raiseFaults cs s).tmrPend = s.tmrPend := by
  induction cs generalizing s with
  | nil => rfl
  | cons c cs ih => exact ih (raiseFault c s)
@[simp] theorem raiseFaults_drops (cs : List FaultCode) (s : State) : (raiseFaults cs s).drops = s.drops := by
  induction cs generalizing s with
  | nil => rfl
  | cons c cs ih => exact ih (raiseFault c s)
@[simp] theorem raiseFaults_events (cs : List FaultCode) (s : State) : (raiseFaults cs s).events = s.events := by
  induction cs generalizing s with
  | nil => rfl
  | cons c cs ih => exact ih (raiseFault c s)
@[simp] theorem raiseFaults_now (cs : List FaultCode) (s : State) : (raiseFaults cs s).now = s.now := by
  induction cs generalizing s with
  | nil => rfl
  | cons c cs ih => exact ih (raiseFault c s)
@[simp] theorem raiseFaults_lat (cs : List FaultCode) (s : State) : (raiseFaults cs s).lat = s.lat := by
  induction cs generalizing s with
  | nil => rfl
  | cons c cs ih => exact ih (raiseFault c s)
@[simp] theorem raiseFaults_env (cs : List FaultCode) (s : State) : (raiseFaults cs s).env = s.env := by
  induction cs generalizing s with
  | nil => rfl
  | cons c cs ih => exact ih (raiseFault c s)
@[simp] theorem raiseFaults_draws (cs : List FaultCode) (s : State) : (raiseFaults cs s).draws = s.draws := by
  induction cs generalizing s with
  | nil => rfl
  | cons c cs ih => exact ih (raiseFault c s)
@[simp] theorem raiseFaults_bindings (cs : List FaultCode) (s : State) : (raiseFaults cs s).bindings = s.bindings := by
  induction cs generalizing s with
  | nil => rfl
  | cons c cs ih => exact ih (raiseFault c s)
@[simp] theorem raiseFaults_inputs (cs : List FaultCode) (s : State) : (raiseFaults cs s).inputs = s.inputs := by
  induction cs generalizing s with
  | nil => rfl
  | cons c cs ih => exact ih (raiseFault c s)

/-! ### countDown: the count, the two timer flags and the latency may change -/

@[simp] theorem countDown_cfg (s : State) : (countDown s).cfg = s.cfg := by
  unfold countDown; split <;> [split; skip] <;> rfl
@[simp] theorem countDown_q (s : State) : (countDown s).q = s.q := by
  unfold countDown; split <;> [split; skip] <;> rfl
@[simp] theorem countDown_rd (s : State) : (countDown s).rd = s.rd := by
  unfold countDown; split <;> [split; skip] <;> rfl
@[simp] theorem countDown_wr (s : State) : (countDown s).wr = s.wr := by
  unfold countDown; split <;> [split; skip] <;> rfl
@[simp] theorem countDown_cnt (s : State) : (countDown s).cnt = s.cnt := by
  unfold countDown; split <;> [split; skip] <;> rfl
@[simp] theorem countDown_sr (s : State) : (countDown s).sr = s.sr := by
  unfold countDown; split <;> [split; skip] <;> rfl
@[simp] theorem countDown_lineDir (s : State) : (countDown s).lineDir = s.lineDir := by
  unfold countDown; split <;> [split; skip] <;> rfl
@[simp] theorem countDown_fault (s : State) : (countDown s).fault = s.fault := by
  unfold countDown; split <;> [split; skip] <;> rfl
@[simp] theorem countDown_drops (s : State) : (countDown s).drops = s.drops := by
  unfold countDown; split <;> [split; skip] <;> rfl
@[simp] theorem countDown_events (s : State) : (countDown s).events = s.events := by
  unfold countDown; split <;> [split; skip] <;> rfl
@[simp] theorem countDown_now (s : State) : (countDown s).now = s.now := by
  unfold countDown; split <;> [split; skip] <;> rfl
@[simp] theorem countDown_env (s : State) : (countDown s).env = s.env := by
  unfold countDown; split <;> [split; skip] <;> rfl
@[simp] theorem countDown_draws (s : State) : (countDown s).draws = s.draws := by
  unfold countDown; split <;> [split; skip] <;> rfl
@[simp] theorem countDown_bindings (s : State) : (countDown s).bindings = s.bindings := by
  unfold countDown; split <;> [split; skip] <;> rfl
@[simp] theorem countDown_inputs (s : State) : (countDown s).inputs = s.inputs := by
  unfold countDown; split <;> [split; skip] <;> rfl

/-! ### tick: the time, the draws and the level move on; the timer is countDown's -/

@[simp] theorem tick_cfg (s : State) : (tick s).cfg = s.cfg := by simp [tick]
@[simp] theorem tick_q (s : State) : (tick s).q = s.q := by simp [tick]
@[simp] theorem tick_rd (s : State) : (tick s).rd = s.rd := by simp [tick]
@[simp] theorem tick_wr (s : State) : (tick s).wr = s.wr := by simp [tick]
@[simp] theorem tick_cnt (s : State) : (tick s).cnt = s.cnt := by simp [tick]
@[simp] theorem tick_sr (s : State) : (tick s).sr = s.sr := by simp [tick]
@[simp] theorem tick_lineDir (s : State) : (tick s).lineDir = s.lineDir := by simp [tick]
@[simp] theorem tick_fault (s : State) : (tick s).fault = s.fault := by simp [tick]
@[simp] theorem tick_drops (s : State) : (tick s).drops = s.drops := by simp [tick]
@[simp] theorem tick_events (s : State) : (tick s).events = s.events := by simp [tick]
@[simp] theorem tick_bindings (s : State) : (tick s).bindings = s.bindings := by simp [tick]
@[simp] theorem tick_inputs (s : State) : (tick s).inputs = s.inputs := by simp [tick]
@[simp] theorem tick_now (s : State) : (tick s).now = s.now + 1 := by simp [tick]
@[simp] theorem tick_env (s : State) : (tick s).env = Config.envDraw s.draws := rfl
@[simp] theorem tick_draws (s : State) : (tick s).draws = s.draws + 1 := rfl

/-! ### beginSlot -/

@[simp] theorem beginSlot_cfg (w : Word) (s : State) : (beginSlot w s).cfg = s.cfg := rfl
@[simp] theorem beginSlot_q (w : Word) (s : State) : (beginSlot w s).q = s.q := rfl
@[simp] theorem beginSlot_rd (w : Word) (s : State) : (beginSlot w s).rd = headAfterAdvance s := rfl
@[simp] theorem beginSlot_wr (w : Word) (s : State) : (beginSlot w s).wr = tailAfterAdvance s := rfl
@[simp] theorem beginSlot_cnt (w : Word) (s : State) : (beginSlot w s).cnt = s.cnt - 1 := rfl
@[simp] theorem beginSlot_sr (w : Word) (s : State) : (beginSlot w s).sr = s.sr := rfl
@[simp] theorem beginSlot_lineDir (w : Word) (s : State) : (beginSlot w s).lineDir = s.lineDir := rfl
@[simp] theorem beginSlot_tmrCount (w : Word) (s : State) : (beginSlot w s).tmrCount = BitVec.ofNat 32 (ticksOf s.cfg (armedUs s.cfg (holdField w))) := rfl
@[simp] theorem beginSlot_tmrArmed (w : Word) (s : State) : (beginSlot w s).tmrArmed = true := rfl
@[simp] theorem beginSlot_tmrPend (w : Word) (s : State) : (beginSlot w s).tmrPend = s.tmrPend := rfl
@[simp] theorem beginSlot_fault (w : Word) (s : State) : (beginSlot w s).fault = s.fault := rfl
@[simp] theorem beginSlot_drops (w : Word) (s : State) : (beginSlot w s).drops = s.drops := rfl
@[simp] theorem beginSlot_events (w : Word) (s : State) : (beginSlot w s).events = s.events ++ [(s.now, .armed (armedUs s.cfg (holdField w))), (s.now, .executed w)] := by simp [beginSlot]
@[simp] theorem beginSlot_now (w : Word) (s : State) : (beginSlot w s).now = s.now := rfl
@[simp] theorem beginSlot_lat (w : Word) (s : State) : (beginSlot w s).lat = s.lat := rfl
@[simp] theorem beginSlot_env (w : Word) (s : State) : (beginSlot w s).env = s.env := rfl
@[simp] theorem beginSlot_draws (w : Word) (s : State) : (beginSlot w s).draws = s.draws := rfl
@[simp] theorem beginSlot_bindings (w : Word) (s : State) : (beginSlot w s).bindings = s.bindings := rfl
@[simp] theorem beginSlot_inputs (w : Word) (s : State) : (beginSlot w s).inputs = s.inputs := rfl
end Sys2Proof.Machine
end

