-- ==== Sys2Proof/Laws/Queue.lean ====
section
/-! SUPPORT. What ENQUEUE can do, said once, and what it leaves alone; the live window under an append and under an
advance; that both keep the invariant. -/

namespace Sys2Proof.Machine

/-! ### The three outcomes of an ENQUEUE -/

/-- Everything an ENQUEUE that answers a next state can have done (rule R100). -/
theorem enqueue_cases {w : Word} {s t : State} (h : enqueue w s = .next t) :
    (wfWord w = false ∧ t = log (.faulted w (rsvdCodes w)) (raiseFaults (rsvdCodes w) s)) ∨
    (wfWord w = true ∧ isFull s = true ∧ t = log (.dropped w) { s with drops := s.drops + 1 }) ∨
    (wfWord w = true ∧ isFull s = false ∧ s.wr < s.cfg.cap ∧ t = append w s) := by
  rw [wfWord_eq_true_iff, wfWord_eq_false_iff]
  unfold enqueue at h
  split at h
  · rename_i c cs hc
    cases h
    exact .inl ⟨by simp [hc], by rw [hc]⟩
  · rename_i hc
    refine .inr ?_
    split at h
    · cases h; exact .inl ⟨hc, ‹_›, rfl⟩
    · split at h
      · cases h; rename_i hf hw; exact .inr ⟨hc, by simpa using hf, hw, rfl⟩
      · cases h

theorem enqueue_reserved {w : Word} (s : State) (h : wfWord w = false) :
    enqueue w s = .next (log (.faulted w (rsvdCodes w)) (raiseFaults (rsvdCodes w) s)) := by
  rw [wfWord_eq_false_iff] at h
  unfold enqueue
  split
  · rename_i hc; rw [hc]
  · contradiction

theorem enqueue_full {w : Word} {s : State} (h : wfWord w = true) (hf : isFull s = true) :
    enqueue w s = .next (log (.dropped w) { s with drops := s.drops + 1 }) := by
  simp [enqueue, (wfWord_eq_true_iff w).1 h, hf]

theorem enqueue_append {w : Word} {s : State} (h : wfWord w = true) (hf : isFull s = false)
    (hw : s.wr < s.cfg.cap) : enqueue w s = .next (append w s) := by
  simp [enqueue, (wfWord_eq_true_iff w).1 h, hf, hw]

/-! ### What ENQUEUE leaves alone -/

/-- An event that only ENQUEUE records. -/
def Event.ofEnqueue : Event → Bool
  | .enqueued _ => true
  | .dropped _ => true
  | .faulted _ _ => true
  | _ => false

/-- Everything but the queue's tail, the fault record and the ghosts is as before; the history grew by outcomes of
ENQUEUEs, recorded now. -/
structure EnqueueFrame (s t : State) : Prop where
  cfg : t.cfg = s.cfg
  rd : t.rd = s.rd
  sr : t.sr = s.sr
  lineDir : t.lineDir = s.lineDir
  tmrCount : t.tmrCount = s.tmrCount
  tmrArmed : t.tmrArmed = s.tmrArmed
  tmrPend : t.tmrPend = s.tmrPend
  now : t.now = s.now
  lat : t.lat = s.lat
  env : t.env = s.env
  draws : t.draws = s.draws
  bindings : t.bindings = s.bindings
  inputs : t.inputs = s.inputs
  events : ∃ es, t.events = s.events ++ es ∧ ∀ e ∈ es, e.1 = s.now ∧ e.2.ofEnqueue = true

theorem EnqueueFrame.refl (s : State) : EnqueueFrame s s := by
  constructor <;> first | rfl | exact ⟨[], by simp, by simp⟩

theorem EnqueueFrame.trans {s t u : State} (a : EnqueueFrame s t) (b : EnqueueFrame t u) :
    EnqueueFrame s u := by
  constructor
  case events =>
    obtain ⟨es, he, hes⟩ := a.events
    obtain ⟨fs, hf, hfs⟩ := b.events
    refine ⟨es ++ fs, by rw [hf, he, List.append_assoc], fun e h => ?_⟩
    rcases List.mem_append.1 h with h | h
    · exact hes e h
    · simpa [a.now] using hfs e h
  all_goals first
    | exact b.cfg.trans a.cfg | exact b.rd.trans a.rd | exact b.sr.trans a.sr
    | exact b.lineDir.trans a.lineDir | exact b.tmrCount.trans a.tmrCount
    | exact b.tmrArmed.trans a.tmrArmed | exact b.tmrPend.trans a.tmrPend | exact b.now.trans a.now
    | exact b.lat.trans a.lat | exact b.env.trans a.env | exact b.draws.trans a.draws
    | exact b.bindings.trans a.bindings | exact b.inputs.trans a.inputs

theorem enqueue_frame {w : Word} {s t : State} (h : enqueue w s = .next t) : EnqueueFrame s t := by
  rcases enqueue_cases h with ⟨-, rfl⟩ | ⟨-, -, rfl⟩ | ⟨-, -, -, rfl⟩
  · constructor
    case events => exact ⟨[(s.now, .faulted w (rsvdCodes w))], by simp, by simp [Event.ofEnqueue]⟩
    all_goals simp
  · constructor
    case events => exact ⟨[(s.now, .dropped w)], rfl, by simp [Event.ofEnqueue]⟩
    all_goals rfl
  · constructor
    case events => exact ⟨[(s.now, .enqueued w)], rfl, by simp [Event.ofEnqueue]⟩
    all_goals rfl

theorem enqueueAll_nil (s : State) : enqueueAll [] s = .next s := rfl

/-- Several ENQUEUEs answer a next state exactly if the first does and the others do after it. -/
theorem enqueueAll_cons {w : Word} {ws : List Word} {s t : State} :
    enqueueAll (w :: ws) s = .next t ↔ ∃ u, enqueue w s = .next u ∧ enqueueAll ws u = .next t := by
  show andThen (enqueue w s) (enqueueAll ws) = .next t ↔ _
  cases enqueue w s <;> simp [andThen]

theorem enqueueAll_frame {ws : List Word} {s t : State} (h : enqueueAll ws s = .next t) :
    EnqueueFrame s t := by
  induction ws generalizing s with
  | nil => cases h; exact .refl _
  | cons w ws ih =>
    obtain ⟨u, hu, ht⟩ := enqueueAll_cons.1 h
    exact (enqueue_frame hu).trans (ih ht)

/-! ### The live window -/

theorem liveWords_congr {s t : State} (hc : t.cnt = s.cnt)
    (h : ∀ k < s.cnt, liveWord t k = liveWord s k) : liveWords t = liveWords s := by
  unfold liveWords
  rw [hc]
  exact List.filterMap_congr fun k hk => h k (List.mem_range.1 hk)

/-- A live slot is not the slot of the next append. -/
theorem slotAt_ne_wr {s : State} (h : Inv s) (hf : isFull s = false) {k : Nat} (hk : k < s.cnt) :
    slotAt s k ≠ s.wr := by
  have hi := h.indices
  unfold indicesOk at hi
  unfold isFull at hf
  unfold slotAt
  split at hi
  · rename_i hq; simp only [hq] at *; omega
  · rename_i hq
    simp only [hq, decide_eq_false_iff_not] at *
    obtain ⟨h1, h2, h3⟩ := hi
    rw [h3]
    intro he
    have hlt : s.cnt < s.cfg.cap := by omega
    have : k ≡ s.cnt [MOD s.cfg.cap] := Nat.ModEq.add_left_cancel' s.rd he
    have h4 : k % s.cfg.cap = s.cnt % s.cfg.cap := this
    rw [Nat.mod_eq_of_lt (by omega), Nat.mod_eq_of_lt hlt] at h4
    omega

/-- Unless the queue is full, its tail index names a slot. -/
theorem wr_lt_cap {s : State} (h : Inv s) (hf : isFull s = false) : s.wr < s.cfg.cap := by
  have hi := h.indices
  unfold indicesOk at hi
  unfold isFull at hf
  split at hi
  · rename_i hq; simp only [hq, decide_eq_false_iff_not] at hf; omega
  · rw [hi.2.2]; exact Nat.mod_lt _ s.cfg.cap_pos

theorem liveWord_append_old {w : Word} {s : State} (h : Inv s) (hf : isFull s = false) {k : Nat}
    (hk : k < s.cnt) : liveWord (append w s) k = liveWord s k :=
  Memory.read_write_other _ _ _ _ (slotAt_ne_wr h hf hk)

/-- The slot after the last live one is the tail. -/
theorem slotAt_cnt {s : State} (h : Inv s) : isFull s = false → slotAt s s.cnt = s.wr := by
  intro _
  have hi := h.indices
  unfold indicesOk at hi
  unfold slotAt
  cases hq : s.cfg.qdisc <;> simp only [hq] at hi ⊢
  · exact hi.1
  · exact hi.2.2.symm

theorem liveWord_append_new {w : Word} {s : State} (h : Inv s) (hf : isFull s = false) :
    liveWord (append w s) s.cnt = some w := by
  show Memory.read (Memory.write s.q s.wr w) (slotAt s s.cnt) = some w
  rw [slotAt_cnt h hf, Memory.read_write_same]

/-- An append adds its word behind the live ones (rules R31, R101). -/
theorem liveWords_append {w : Word} {s : State} (h : Inv s) (hf : isFull s = false) :
    liveWords (append w s) = liveWords s ++ [w] := by
  unfold liveWords
  rw [append_cnt, List.range_succ, List.filterMap_append]
  congr 1
  · exact List.filterMap_congr fun k hk => liveWord_append_old h hf (List.mem_range.1 hk)
  · simp [liveWord_append_new h hf]

theorem liveWord_advance {s : State} (h : Inv s) {k : Nat} (hk : k + 1 < s.cnt) :
    liveWord (advance s) k = liveWord s (k + 1) := by
  have hi := h.indices
  unfold liveWord
  congr 1
  unfold indicesOk at hi
  unfold slotAt
  simp only [advance_cfg, advance_rd, headAfterAdvance]
  cases hq : s.cfg.qdisc <;> simp only [hq] at hi ⊢
  · rw [if_neg (by omega)]; omega
  · rw [Nat.mod_add_mod]
    congr 1; omega

/-- The head slot is the slot of the first live entry. -/
theorem slotAt_zero {s : State} (h : Inv s) : slotAt s 0 = s.rd := by
  have hi := h.indices
  unfold indicesOk at hi
  unfold slotAt
  cases hq : s.cfg.qdisc <;> simp only [hq] at hi ⊢
  · simp
  · simp only [Nat.add_zero]; exact Nat.mod_eq_of_lt hi.1

/-- A live head: its slot exists and holds a well-formed word. -/
theorem head_live {s : State} (h : Inv s) (hc : s.cnt ≠ 0) :
    s.rd < s.cfg.cap ∧ ∃ w, Memory.read s.q s.rd = some w ∧ wfWord w = true := by
  refine ⟨?_, ?_⟩
  · have hi := h.indices
    unfold indicesOk at hi
    split at hi
    · omega
    · exact hi.1
  · obtain ⟨w, hw, hwf⟩ := h.live 0 (Nat.pos_of_ne_zero hc)
    exact ⟨w, by rw [← slotAt_zero h]; exact hw, hwf⟩

/-- The advance takes the head off the live words (rule R106). -/
theorem liveWords_advance {s : State} (h : Inv s) {w : Word} (hc : s.cnt ≠ 0)
    (hw : Memory.read s.q s.rd = some w) : liveWords s = w :: liveWords (advance s) := by
  unfold liveWords
  obtain ⟨n, hn⟩ := Nat.exists_eq_succ_of_ne_zero hc
  rw [advance_cnt, hn, List.range_succ_eq_map, List.filterMap_cons]
  have h0 : liveWord s 0 = some w := by rw [liveWord, slotAt_zero h]; exact hw
  rw [h0]
  simp only [Nat.succ_sub_one, List.filterMap_map]
  congr 1
  refine List.filterMap_congr fun k hk => ?_
  exact (liveWord_advance h (by have := List.mem_range.1 hk; omega)).symm

/-! ### The invariant -/

/-- The invariant speaks of these fields only. -/
theorem Inv.of_eq {s t : State} (h : Inv s) (cfg : t.cfg = s.cfg) (q : t.q = s.q) (rd : t.rd = s.rd)
    (wr : t.wr = s.wr) (cnt : t.cnt = s.cnt) (count : t.tmrCount = s.tmrCount)
    (armed : t.tmrArmed = s.tmrArmed) (pend : t.tmrPend = s.tmrPend)
    (bindings : t.bindings = s.bindings) : Inv t where
  store := by rw [q]; exact h.store
  bounded := by rw [q, cfg]; exact h.bounded
  indices := by have := h.indices; unfold indicesOk at *; rwa [cfg, rd, wr, cnt]
  live := by
    intro k hk
    rw [cnt] at hk
    have : liveWord t k = liveWord s k := by unfold liveWord slotAt; rw [q, cfg, rd]
    rw [this]; exact h.live k hk
  oneShot := by rw [armed, pend]; exact h.oneShot
  counting := by rw [armed, count]; exact h.counting
  expired := by rw [pend, count]; exact h.expired
  bound := by rw [bindings]; exact h.bound

/-- An append keeps the invariant. -/
theorem Inv.append {w : Word} {s : State} (h : Inv s) (hw : wfWord w = true) (hf : isFull s = false) :
    Inv (append w s) where
  store := Memory.wf_write h.store _ _
  bounded := by
    intro e he
    rcases Memory.mem_write he with rfl | he
    · exact wr_lt_cap h hf
    · exact h.bounded e he
  indices := by
    have hi := h.indices
    unfold indicesOk at *
    unfold isFull at hf
    simp only [append_cfg, append_rd, append_wr, append_cnt, nextSlot]
    split at hi
    · rename_i hq
      simp only [hq, decide_eq_false_iff_not] at *
      omega
    · rename_i hq
      simp only [hq, decide_eq_false_iff_not] at *
      refine ⟨hi.1, by omega, ?_⟩
      rw [hi.2.2, Nat.mod_add_mod, Nat.add_assoc]
  live := by
    intro k hk
    rw [append_cnt] at hk
    by_cases hkc : k = s.cnt
    · subst hkc; exact ⟨w, liveWord_append_new h hf, hw⟩
    · rw [liveWord_append_old h hf (by omega)]
      exact h.live k (by omega)
  oneShot := h.oneShot
  counting := h.counting
  expired := h.expired
  bound := h.bound

/-- The advance of a queue that is not empty keeps the invariant. -/
theorem Inv.advance {s : State} (h : Inv s) (hc : s.cnt ≠ 0) : Inv (advance s) where
  store := h.store
  bounded := h.bounded
  indices := by
    have hi := h.indices
    unfold indicesOk at *
    simp only [advance_cfg, advance_rd, advance_wr, advance_cnt, headAfterAdvance, tailAfterAdvance]
    cases hq : s.cfg.qdisc <;> simp only [hq] at hi ⊢
    · split <;> omega
    · refine ⟨Nat.mod_lt _ s.cfg.cap_pos, by omega, ?_⟩
      rw [hi.2.2, Nat.mod_add_mod]
      congr 1; omega
  live := by
    intro k hk
    rw [advance_cnt] at hk
    rw [liveWord_advance h (by omega)]
    exact h.live (k + 1) (by omega)
  oneShot := h.oneShot
  counting := h.counting
  expired := h.expired
  bound := h.bound

/-- From a state that meets the invariant, ENQUEUE answers a next state, which meets it too. -/
theorem enqueue_next {s : State} (h : Inv s) (w : Word) : ∃ t, enqueue w s = .next t ∧ Inv t := by
  cases hw : wfWord w with
  | false => exact ⟨_, enqueue_reserved s hw, h.of_eq (by simp) (by simp) (by simp) (by simp) (by simp)
      (by simp) (by simp) (by simp) (by simp)⟩
  | true =>
    cases hf : isFull s with
    | true => exact ⟨_, enqueue_full hw hf, h.of_eq rfl rfl rfl rfl rfl rfl rfl rfl rfl⟩
    | false => exact ⟨_, enqueue_append hw hf (wr_lt_cap h hf), h.append hw hf⟩

theorem enqueueAll_next {s : State} (h : Inv s) (ws : List Word) :
    ∃ t, enqueueAll ws s = .next t ∧ Inv t := by
  induction ws generalizing s with
  | nil => exact ⟨s, rfl, h⟩
  | cons w ws ih =>
    obtain ⟨u, hu, hi⟩ := enqueue_next h w
    obtain ⟨t, ht, hit⟩ := ih hi
    exact ⟨t, enqueueAll_cons.2 ⟨u, hu, ht⟩, hit⟩

/-! ### Several ENQUEUEs -/

theorem enqueueAll_append {a b : List Word} {s t u : State} (h : enqueueAll a s = .next t)
    (h' : enqueueAll b t = .next u) : enqueueAll (a ++ b) s = .next u := by
  induction a generalizing s with
  | nil => cases h; exact h'
  | cons w a ih =>
    obtain ⟨v, hv, ht⟩ := enqueueAll_cons.1 h
    exact enqueueAll_cons.2 ⟨v, hv, ih ht⟩

/-- An ENQUEUE writes no slot, or the one at the tail. -/
theorem enqueue_slots {w : Word} {s t : State} (h : enqueue w s = .next t) :
    (t.cnt = s.cnt ∧ t.q = s.q ∧ t.wr = s.wr) ∨
    (t.cnt = s.cnt + 1 ∧ t.wr = nextSlot s.cfg s.wr ∧ s.wr < s.cfg.cap ∧
      ∀ a, a ≠ s.wr → Memory.read t.q a = Memory.read s.q a) := by
  rcases enqueue_cases h with ⟨-, rfl⟩ | ⟨-, -, rfl⟩ | ⟨-, -, hw, rfl⟩
  · left; simp
  · left; simp
  · exact .inr ⟨rfl, rfl, hw, fun a ha => Memory.read_write_other _ _ _ _ ha⟩

/-- Several ENQUEUEs write only the slots that the tail index names in turn. -/
theorem enqueueAll_slots {ws : List Word} {s t : State} (h : enqueueAll ws s = .next t) :
    s.cnt ≤ t.cnt ∧
      ∀ a, (∀ j < t.cnt - s.cnt, a ≠ tailSlot s j) → Memory.read t.q a = Memory.read s.q a := by
  induction ws generalizing s with
  | nil => cases h; exact ⟨Nat.le_refl _, fun _ _ => rfl⟩
  | cons w ws ih =>
    obtain ⟨u, hu, ht⟩ := enqueueAll_cons.1 h
    obtain ⟨i1, i2⟩ := ih ht
    have hcfg := (enqueue_frame hu).cfg
    rcases enqueue_slots hu with ⟨h1, h2, h3⟩ | ⟨h1, h2, hlt, h3⟩
    · refine ⟨by omega, fun a ha => ?_⟩
      rw [i2 a, h2]
      intro j hj
      have := ha j (by omega)
      unfold tailSlot at *; rwa [hcfg, h3]
    · refine ⟨by omega, fun a ha => ?_⟩
      rw [i2 a, h3 a]
      · have := ha 0 (by omega)
        unfold tailSlot at this
        split at this
        · simpa using this
        · simp at this; rwa [Nat.mod_eq_of_lt hlt] at this
      · intro j hj
        have := ha (j + 1) (by omega)
        unfold tailSlot nextSlot at *
        rw [hcfg, h2]
        split <;> simp_all <;> (intro h; apply this; rw [h]; first | omega | (congr 1; omega))

/-- There are CNT live words. -/
theorem liveWords_length {s : State} (h : Inv s) : (liveWords s).length = s.cnt := by
  have : ∀ n ≤ s.cnt, ((List.range n).filterMap (liveWord s)).length = n := by
    intro n hn
    induction n with
    | zero => rfl
    | succ n ih =>
      obtain ⟨w, hw, -⟩ := h.live n (by omega)
      rw [List.range_succ, List.filterMap_append, List.length_append, ih (by omega)]
      simp [hw]
  exact this _ (Nat.le_refl _)

end Sys2Proof.Machine
end

