-- ==== Sys2Proof/Laws/Step.lean ====
section
/-! SUPPORT. What a step can do, said once: the two outcomes of the callback, the effect of each action kind, the three
things the block's own step can be, and the moves of the agents outside it. -/

namespace Sys2Proof.Machine

/-! ### The effects -/

theorem andThen_next {r : Result} {f : State → Result} {t : State} :
    andThen r f = .next t ↔ ∃ u, r = .next u ∧ f u = .next t := by
  cases r <;> simp [andThen]

/-- A callback either is not there, or is recorded and its function's ENQUEUEs follow (rule R127). -/
theorem emitTo_cases {cb : Option Nat} {v : Byte} {s t : State} (h : emitTo cb v s = .next t) :
    (cb = none ∧ t = s) ∨
    ∃ n, cb = some n ∧ enqueueAll (hostWords s.bindings n v) (log (.callback n v) s) = .next t := by
  cases cb with
  | none => cases h; exact .inl ⟨rfl, rfl⟩
  | some n => exact .inr ⟨n, rfl, h⟩

theorem exec_busLow (h : Nat) (c : Option Nat) (s : State) : exec (.busLow h c) s = .next (driveLow s) := rfl

theorem exec_releaseBus (h : Nat) (c : Option Nat) (s : State) : exec (.releaseBus h c) s = .next (release s) :=
  rfl

theorem exec_sampleBit (h : Nat) (c : Option Nat) (s : State) :
    exec (.sampleBit h c) s =
      emitTo c (zextBit (level s)) (setShiftRegister (shiftIn (level s) s.sr) (sample s)) := rfl

theorem exec_transferByte (h : Nat) (c : Option Nat) (s : State) :
    exec (.transferByte h c) s = emitTo c s.sr s := rfl

theorem exec_waitForBusHigh (h : Nat) (c : Option Nat) (s : State) : exec (.waitForBusHigh h c) s = .next s := rfl

theorem exec_clearShiftRegister (h : Nat) (c : Option Nat) (s : State) :
    exec (.clearShiftRegister h c) s = .next (setShiftRegister 0#8 s) := rfl

/-- From a state that meets the invariant a callback returns, and leaves the invariant (rules R127, R186). -/
theorem emitTo_next {s : State} (h : Inv s) (cb : Option Nat) (v : Byte) :
    ∃ t, emitTo cb v s = .next t ∧ Inv t := by
  cases cb with
  | none => exact ⟨s, rfl, h⟩
  | some n => exact enqueueAll_next (s := log (.callback n v) s) (h.of_eq rfl rfl rfl rfl rfl rfl rfl rfl rfl) _

/-- From a state that meets the invariant every action completes, and leaves the invariant. -/
theorem exec_next {s : State} (h : Inv s) (i : Instr) : ∃ t, exec i s = .next t ∧ Inv t := by
  cases i with
  | busLow n c => exact ⟨_, rfl, h.of_eq rfl rfl rfl rfl rfl rfl rfl rfl rfl⟩
  | releaseBus n c => exact ⟨_, rfl, h.of_eq rfl rfl rfl rfl rfl rfl rfl rfl rfl⟩
  | sampleBit n c =>
    exact emitTo_next (s := setShiftRegister (shiftIn (level s) s.sr) (sample s))
      (h.of_eq rfl rfl rfl rfl rfl rfl rfl rfl rfl) c _
  | transferByte n c => exact emitTo_next h c _
  | waitForBusHigh n c => exact ⟨_, rfl, h⟩
  | clearShiftRegister n c => exact ⟨_, rfl, h.of_eq rfl rfl rfl rfl rfl rfl rfl rfl rfl⟩

/-! ### What every effect leaves alone -/

/-- No effect touches the parameters, RD, the timer, the time, the level of the bus, the draws, the bindings or the waiting
moves; what it records, it records now, at the end of the history. -/
structure ExecFrame (s t : State) : Prop where
  cfg : t.cfg = s.cfg
  rd : t.rd = s.rd
  tmrCount : t.tmrCount = s.tmrCount
  tmrArmed : t.tmrArmed = s.tmrArmed
  tmrPend : t.tmrPend = s.tmrPend
  now : t.now = s.now
  lat : t.lat = s.lat
  env : t.env = s.env
  draws : t.draws = s.draws
  bindings : t.bindings = s.bindings
  inputs : t.inputs = s.inputs
  events : ∃ es, t.events = s.events ++ es ∧ ∀ e ∈ es, e.1 = s.now

theorem ExecFrame.refl (s : State) : ExecFrame s s := by
  constructor <;> first | rfl | exact ⟨[], by simp, by simp⟩

theorem ExecFrame.of_enqueueFrame {s t : State} (h : EnqueueFrame s t) : ExecFrame s t where
  cfg := h.cfg
  rd := h.rd
  tmrCount := h.tmrCount
  tmrArmed := h.tmrArmed
  tmrPend := h.tmrPend
  now := h.now
  lat := h.lat
  env := h.env
  draws := h.draws
  bindings := h.bindings
  inputs := h.inputs
  events := by
    obtain ⟨es, he, hes⟩ := h.events
    exact ⟨es, he, fun e hm => (hes e hm).1⟩

/-- A callback, and whatever the host's function ENQUEUEs, changes only what ENQUEUE may change, and the history. -/
theorem emitTo_frame {cb : Option Nat} {v : Byte} {s t : State} (h : emitTo cb v s = .next t) :
    ExecFrame s t ∧ t.sr = s.sr ∧ t.lineDir = s.lineDir := by
  rcases emitTo_cases h with ⟨-, rfl⟩ | ⟨n, -, hn⟩
  · exact ⟨.refl _, rfl, rfl⟩
  · have f := enqueueAll_frame hn
    have g := ExecFrame.of_enqueueFrame f
    refine ⟨{ g with events := ?_ }, f.sr, f.lineDir⟩
    obtain ⟨es, he, hes⟩ := g.events
    exact ⟨(s.now, .callback n v) :: es, by simp [he], by simpa using fun a b hm => hes (a, b) hm⟩

theorem exec_frame {i : Instr} {s t : State} (h : exec i s = .next t) : ExecFrame s t := by
  cases i with
  | busLow n c => cases h; exact { ExecFrame.refl s with events := ⟨[_], rfl, by simp⟩ }
  | releaseBus n c => cases h; exact { ExecFrame.refl s with events := ⟨[_], rfl, by simp⟩ }
  | waitForBusHigh n c => cases h; exact .refl _
  | clearShiftRegister n c => cases h; exact { ExecFrame.refl s with }
  | transferByte n c => exact (emitTo_frame h).1
  | sampleBit n c =>
    have f := (emitTo_frame h).1
    refine { f with events := ?_ }
    obtain ⟨es, he, hes⟩ := f.events
    exact ⟨(s.now, .sampled (level s)) :: es, by simp [he], by simpa using fun a b hm => hes (a, b) hm⟩

/-- What each effect makes of the shift register and of the line. -/
theorem exec_sr_lineDir (i : Instr) (s t : State) : exec i s = .next t →
    t.sr = (match i with
      | .sampleBit _ _ => shiftIn (level s) s.sr
      | .clearShiftRegister _ _ => 0#8
      | _ => s.sr) ∧
    t.lineDir = (match i with
      | .busLow _ _ => .outputLow
      | .releaseBus _ _ => .input
      | _ => s.lineDir) := by
  intro h
  cases i with
  | busLow n c => cases h; exact ⟨rfl, rfl⟩
  | releaseBus n c => cases h; exact ⟨rfl, rfl⟩
  | waitForBusHigh n c => cases h; exact ⟨rfl, rfl⟩
  | clearShiftRegister n c => cases h; exact ⟨rfl, rfl⟩
  | transferByte n c => exact (emitTo_frame h).2
  | sampleBit n c => exact (emitTo_frame h).2

/-! ### What the effects record -/

theorem callbacks_append (a b : List (Nat × Event)) : callbacks (a ++ b) = callbacks a ++ callbacks b := by
  simp [callbacks]

theorem sampledBits_append (a b : List (Nat × Event)) : sampledBits (a ++ b) = sampledBits a ++ sampledBits b := by
  simp [sampledBits]

theorem executedWords_append (a b : List (Nat × Event)) :
    executedWords (a ++ b) = executedWords a ++ executedWords b := by
  simp [executedWords]

theorem acceptedWords_append (a b : List (Nat × Event)) :
    acceptedWords (a ++ b) = acceptedWords a ++ acceptedWords b := by
  simp [acceptedWords]

/-- The outcomes of ENQUEUEs are no callback, no sample and no execution. -/
theorem ofEnqueue_silent {es : List (Nat × Event)} (h : ∀ e ∈ es, e.2.ofEnqueue = true) :
    callbacks es = [] ∧ sampledBits es = [] ∧ executedWords es = [] := by
  simp only [callbacks, sampledBits, executedWords, List.filterMap_eq_nil_iff]
  refine ⟨?_, ?_, ?_⟩ <;> intro e he <;> have := h e he <;> revert this <;> cases e.2 <;> simp [Event.ofEnqueue]

/-- A callback is recorded once if there is one; no bit is sampled and no word executed in it. -/
theorem emitTo_history {cb : Option Nat} {v : Byte} {s t : State} (h : emitTo cb v s = .next t) :
    callbacks t.events = callbacks s.events ++ (match cb with | some n => [(n, v)] | none => []) ∧
      sampledBits t.events = sampledBits s.events ∧ executedWords t.events = executedWords s.events := by
  rcases emitTo_cases h with ⟨rfl, rfl⟩ | ⟨n, rfl, hh⟩
  · simp
  · obtain ⟨es, he, hes⟩ := (enqueueAll_frame hh).events
    obtain ⟨a, b, c⟩ := ofEnqueue_silent (fun e h => (hes e h).2)
    rw [he, callbacks_append, sampledBits_append, executedWords_append, a, b, c]
    simp [log, callbacks, sampledBits, executedWords]

/-! ### The handler -/

/-- Everything an EXPIRY that answers a next state can have done (rule R103). -/
theorem expiry_cases {s t : State} (h : expiry s = .next t) :
    (s.cnt = 0 ∧ t = arm s.cfg.idlePollUs (acknowledge s)) ∨
    (s.cnt ≠ 0 ∧ s.rd < s.cfg.cap ∧ ∃ w i, Memory.read s.q s.rd = some w ∧ decode w = .action i ∧
      exec i (beginSlot w (acknowledge s)) = .next t) := by
  unfold expiry isEmpty at h
  split at h
  · rename_i hc
    cases h
    exact .inl ⟨by simpa using hc, rfl⟩
  · rename_i hc
    refine .inr ⟨by simpa using hc, ?_⟩
    unfold withHead at h
    split at h
    · rename_i hr
      refine ⟨hr, ?_⟩
      split at h
      · rename_i w hw
        simp only [runHead] at h
        split at h
        · rename_i i hi
          exact ⟨w, i, hw, hi, h⟩
        · cases h
      · cases h
    · cases h

theorem expiry_empty {s : State} (h : s.cnt = 0) :
    expiry s = .next (arm s.cfg.idlePollUs (acknowledge s)) := by simp [expiry, isEmpty, h]

theorem expiry_head {s : State} {w : Word} {i : Instr} (hc : s.cnt ≠ 0) (hr : s.rd < s.cfg.cap)
    (hw : Memory.read s.q s.rd = some w) (hi : decode w = .action i) :
    expiry s = exec i (beginSlot w (acknowledge s)) := by
  simp [expiry, isEmpty, hc, withHead, hr, hw, runHead, hi]

/-- Everything the block's own step can be: a tick, an idle poll, or the head action's slot. -/
theorem blockStep_cases {s t : State} (h : blockStep s = .next t) :
    (expiryDue s = false ∧ t = tick s) ∨
    (expiryDue s = true ∧ s.cnt = 0 ∧ t = arm s.cfg.idlePollUs (acknowledge s)) ∨
    (expiryDue s = true ∧ s.cnt ≠ 0 ∧ s.rd < s.cfg.cap ∧
      ∃ w i, Memory.read s.q s.rd = some w ∧ decode w = .action i ∧
        exec i (beginSlot w (acknowledge s)) = .next t) := by
  unfold blockStep at h
  split at h
  · rename_i hd
    rcases expiry_cases h with ⟨hc, ht⟩ | ⟨hc, hr, hw⟩
    · exact .inr (.inl ⟨hd, hc, ht⟩)
    · exact .inr (.inr ⟨hd, hc, hr, hw⟩)
  · rename_i hd
    cases h
    exact .inl ⟨by simpa using hd, rfl⟩

/-! ### The step -/

/-! Using up a waiting move changes nothing but the list of them. -/

@[simp] theorem afterMove_cfg (s : State) : (afterMove s).cfg = s.cfg := rfl
@[simp] theorem afterMove_q (s : State) : (afterMove s).q = s.q := rfl
@[simp] theorem afterMove_rd (s : State) : (afterMove s).rd = s.rd := rfl
@[simp] theorem afterMove_wr (s : State) : (afterMove s).wr = s.wr := rfl
@[simp] theorem afterMove_cnt (s : State) : (afterMove s).cnt = s.cnt := rfl
@[simp] theorem afterMove_sr (s : State) : (afterMove s).sr = s.sr := rfl
@[simp] theorem afterMove_lineDir (s : State) : (afterMove s).lineDir = s.lineDir := rfl
@[simp] theorem afterMove_tmrCount (s : State) : (afterMove s).tmrCount = s.tmrCount := rfl
@[simp] theorem afterMove_tmrArmed (s : State) : (afterMove s).tmrArmed = s.tmrArmed := rfl
@[simp] theorem afterMove_tmrPend (s : State) : (afterMove s).tmrPend = s.tmrPend := rfl
@[simp] theorem afterMove_fault (s : State) : (afterMove s).fault = s.fault := rfl
@[simp] theorem afterMove_drops (s : State) : (afterMove s).drops = s.drops := rfl
@[simp] theorem afterMove_events (s : State) : (afterMove s).events = s.events := rfl
@[simp] theorem afterMove_now (s : State) : (afterMove s).now = s.now := rfl
@[simp] theorem afterMove_lat (s : State) : (afterMove s).lat = s.lat := rfl
@[simp] theorem afterMove_env (s : State) : (afterMove s).env = s.env := rfl
@[simp] theorem afterMove_draws (s : State) : (afterMove s).draws = s.draws := rfl
@[simp] theorem afterMove_bindings (s : State) : (afterMove s).bindings = s.bindings := rfl
@[simp] theorem afterMove_inputs (s : State) : (afterMove s).inputs = s.inputs.tail := rfl

@[simp] theorem afterMove_expiryDue (s : State) : expiryDue (afterMove s) = expiryDue s := rfl

/-- Everything a step can be: the block's own, or one move of an agent outside it (rule R71). -/
theorem step_cases {s t : State} (h : step s = .next t) :
    (blockMoves s = true ∧ resetMoves s = false ∧ blockStep (afterMove s) = .next t) ∨
    (blockMoves s = false ∧ resetMoves s = false ∧ ∃ w, s.inputs.head? = some (.enqueue w) ∧
      enqueue w (afterMove s) = .next t) ∨
    (blockMoves s = false ∧ resetMoves s = false ∧ ∃ n f, s.inputs.head? = some (.bind n f) ∧
      t = { afterMove s with bindings := Memory.write s.bindings n f }) ∨
    (blockMoves s = false ∧ resetMoves s = false ∧ ∃ b, s.inputs.head? = some (.env b) ∧
      t = { afterMove s with env := b }) ∨
    (blockMoves s = false ∧ resetMoves s = true ∧ t = resetBlock (afterMove s)) := by
  unfold step at h
  cases hs : s.inputs with
  | nil =>
    rw [hs] at h
    refine .inl ⟨by simp [blockMoves, hs], by simp [resetMoves, hs], ?_⟩
    have : afterMove s = s := by cases s; simp_all [afterMove]
    rwa [this]
  | cons i rest =>
    rw [hs] at h
    have ha : afterMove s = { s with inputs := rest } := by simp [afterMove, hs]
    rw [ha]
    cases i with
    | enqueue w => exact .inr (.inl ⟨by simp [blockMoves, hs], by simp [resetMoves, hs], w, rfl, h⟩)
    | bind n f =>
      cases h
      exact .inr (.inr (.inl ⟨by simp [blockMoves, hs], by simp [resetMoves, hs], n, f, rfl, rfl⟩))
    | env b =>
      cases h
      exact .inr (.inr (.inr (.inl ⟨by simp [blockMoves, hs], by simp [resetMoves, hs], b, rfl, rfl⟩)))
    | reset =>
      cases h
      exact .inr (.inr (.inr (.inr ⟨by simp [blockMoves, hs], by simp [resetMoves, hs], rfl⟩)))
    | pass => exact .inl ⟨by simp [blockMoves, hs], by simp [resetMoves, hs], h⟩

/-- The block's own step is `blockStep`. -/
theorem step_block {s : State} (h : blockMoves s = true) : step s = blockStep (afterMove s) := by
  unfold blockMoves at h
  unfold step
  split at h
  · rename_i hs
    have : afterMove s = s := by cases s; simp_all [afterMove]
    rw [hs, this]
  · rename_i rest hs
    rw [hs]
    simp [afterMove, hs, deliver]
  · cases h

theorem slotBegins_eq_true_iff (s : State) :
    slotBegins s = true ↔ blockMoves s = true ∧ expiryDue s = true ∧ s.cnt ≠ 0 := by
  simp [slotBegins, isEmpty, and_assoc]

/-- The seven kinds of step, each with what marks it: a slot, an idle poll, a tick, an ENQUEUE, a binding, a change of the
bus level, a reset. -/
theorem step_kinds {s t : State} (h : step s = .next t) :
    (resetMoves s = false ∧ slotBegins s = true ∧ blockMoves s = true ∧ expiryDue s = true ∧ s.cnt ≠ 0 ∧
      s.rd < s.cfg.cap ∧ ∃ w i, Memory.read s.q s.rd = some w ∧ decode w = .action i ∧
        exec i (beginSlot w (acknowledge (afterMove s))) = .next t) ∨
    (resetMoves s = false ∧ slotBegins s = false ∧ blockMoves s = true ∧ expiryDue s = true ∧ s.cnt = 0 ∧
      t = arm s.cfg.idlePollUs (acknowledge (afterMove s))) ∨
    (resetMoves s = false ∧ slotBegins s = false ∧ blockMoves s = true ∧ expiryDue s = false ∧
      t = tick (afterMove s)) ∨
    (resetMoves s = false ∧ slotBegins s = false ∧ blockMoves s = false ∧
      ∃ w, enqueue w (afterMove s) = .next t) ∨
    (resetMoves s = false ∧ slotBegins s = false ∧ blockMoves s = false ∧
      ∃ n f, t = { afterMove s with bindings := Memory.write s.bindings n f }) ∨
    (resetMoves s = false ∧ slotBegins s = false ∧ blockMoves s = false ∧
      ∃ b, t = { afterMove s with env := b }) ∨
    (resetMoves s = true ∧ slotBegins s = false ∧ blockMoves s = false ∧ t = resetBlock (afterMove s)) := by
  rcases step_cases h with ⟨hb, hr, hb'⟩ | ⟨hb, hr, w, -, hw⟩ | ⟨hb, hr, n, f, -, hw⟩ | ⟨hb, hr, b, -, hw⟩ |
    ⟨hb, hr, hw⟩
  · rcases blockStep_cases hb' with ⟨hd, ht⟩ | ⟨hd, hc, ht⟩ | ⟨hd, hc, hr', w, i, hw, hi, he⟩
    · have hd : expiryDue s = false := hd
      exact .inr (.inr (.inl ⟨hr, by simp [slotBegins, hd], hb, hd, ht⟩))
    · have hc : s.cnt = 0 := hc
      exact .inr (.inl ⟨hr, by simp [slotBegins, isEmpty, hc], hb, hd, hc, ht⟩)
    · exact .inl ⟨hr, (slotBegins_eq_true_iff s).2 ⟨hb, hd, hc⟩, hb, hd, hc, hr', w, i, hw, hi, he⟩
  · exact .inr (.inr (.inr (.inl ⟨hr, by simp [slotBegins, hb], hb, w, hw⟩)))
  · exact .inr (.inr (.inr (.inr (.inl ⟨hr, by simp [slotBegins, hb], hb, n, f, hw⟩))))
  · exact .inr (.inr (.inr (.inr (.inr (.inl ⟨hr, by simp [slotBegins, hb], hb, b, hw⟩)))))
  · exact .inr (.inr (.inr (.inr (.inr (.inr ⟨hr, by simp [slotBegins, hb], hb, hw⟩)))))

end Sys2Proof.Machine
end

