-- ==== Sys2Proof/Laws/Run.lean ====
section
/-! SUPPORT. Runs of several steps: how they compose, and the two runs of ticks that the timer makes with no agent outside
the block moving (rules R179, R182): the count from an Arm to the expiry, and the latency from the expiry to the
EXPIRY. -/

namespace Sys2Proof.Machine

/-- The host's run of any core: it goes on from a next state, and ends where a step stops. -/
theorem core_run_succ (M : Host.Core) (k : Nat) (s : M.State) :
    (∀ t, M.step s = .next t → M.run (k + 1) s = M.run k t) ∧
    (∀ r, M.step s = .fault r → M.run (k + 1) s = .fault r) ∧
    (∀ r, M.step s = .refused r → M.run (k + 1) s = .refused r) := by
  refine ⟨?_, ?_, ?_⟩ <;> intro _ h <;> rw [Host.Core.run, h]

/-- `runSteps` is the host's own run of the core. -/
theorem runSteps_eq_core (k : Nat) (s : State) : runSteps k s = Host.Core.run Sys2Proof.core k s := by
  induction k generalizing s with
  | zero => rfl
  | succ k ih =>
    have hc := core_run_succ Sys2Proof.core k s
    cases hs : step s with
    | next t => rw [runSteps, hs]; exact (ih t).trans (hc.1 t hs).symm
    | fault r => rw [runSteps, hs]; exact (hc.2.1 r hs).symm
    | refused r => rw [runSteps, hs]; exact (hc.2.2 r hs).symm

theorem runSteps_succ {s t : State} (k : Nat) (h : step s = .next t) : runSteps (k + 1) s = runSteps k t := by
  simp [runSteps, h, andThen]

/-- A run of a + b steps is a run of a and then of b. -/
theorem runSteps_add {s t : State} (a b : Nat) (h : runSteps a s = .next t) : runSteps (a + b) s = runSteps b t := by
  induction a generalizing s with
  | zero => cases h; simp
  | succ a ih =>
    rw [show a + 1 + b = (a + b) + 1 by omega]
    obtain ⟨u, hu, h'⟩ := andThen_next.1 h
    rw [runSteps_succ _ hu, ih h']

/-- One more step at the end of a run. -/
theorem runSteps_snoc {s t u : State} (k : Nat) (h : runSteps k s = .next t) (hu : step t = .next u) :
    runSteps (k + 1) s = .next u := by
  rw [runSteps_add k 1 h, runSteps_succ 0 hu]; rfl

theorem step_tick {s : State} (hi : s.inputs = []) (hd : expiryDue s = false) : step s = .next (tick s) := by
  simp [step, hi, blockStep, hd]

/-- A tick leaves the live words as they are. -/
theorem liveWords_tick (s : State) : liveWords (tick s) = liveWords s :=
  liveWords_congr (by simp) fun k _ => by simp [liveWord, slotAt]

/-- The count: an armed timer with nothing pending counts one a step, and expires exactly at the step its count
names. -/
theorem run_count {s : State} (hi : s.inputs = []) (ha : s.tmrArmed = true) (hp : s.tmrPend = false) (k : Nat)
    (hk : k ≤ s.tmrCount.toNat) (hc : s.tmrCount ≠ 0#32) :
    ∃ t, runSteps k s = .next t ∧ t.now = s.now + k ∧ t.tmrCount.toNat = s.tmrCount.toNat - k ∧
      (t.tmrArmed = true ↔ k < s.tmrCount.toNat) ∧ (t.tmrPend = true ↔ k = s.tmrCount.toNat) ∧
      t.q = s.q ∧ t.cnt = s.cnt ∧ t.sr = s.sr ∧ t.lineDir = s.lineDir ∧ t.inputs = [] ∧
      t.draws = s.draws + k ∧ (k = s.tmrCount.toNat → t.lat = Config.latencyDraw (s.draws + k - 1)) ∧
      liveWords t = liveWords s := by
  have hc0 : s.tmrCount.toNat ≠ 0 := fun h => hc (BitVec.eq_of_toNat_eq h)
  induction k with
  | zero =>
    exact ⟨s, rfl, by simp, by simp, by simp [ha]; omega, by simp [hp]; omega, rfl, rfl, rfl, rfl, hi, by simp,
      by intro h; omega, rfl⟩
  | succ k ih =>
    obtain ⟨t, hr, h1, h2, h3, h4, h5, h6, h7, h8, h9, h10, -, h12⟩ := ih (by omega)
    have hpt : t.tmrPend = false := by
      rw [← Bool.not_eq_true, h4]; omega
    have hat : t.tmrArmed = true := h3.2 (by omega)
    have hs := step_tick (s := t) h9 (by simp [expiryDue, hpt])
    have hone : t.tmrCount - 1#32 = 0#32 ↔ k + 1 = s.tmrCount.toNat := by
      rw [← BitVec.toNat_inj]; simp only [BitVec.toNat_sub]; simp; omega
    have hcnt : (t.tmrCount - 1#32).toNat = s.tmrCount.toNat - (k + 1) := by
      simp only [BitVec.toNat_sub]; simp; omega
    refine ⟨tick t, runSteps_snoc k hr hs, by simp; omega, ?_, ?_, ?_, by simp [h5], by simp [h6], by simp [h7],
      by simp [h8], by simp [h9], by simp [h10]; omega, ?_, by rw [liveWords_tick, h12]⟩
    · simp only [tick, countDown, hat, if_true]; split <;> exact hcnt
    · simp only [tick, countDown, hat, if_true]; split <;> simp only [expire] <;> simp_all; omega
    · simp only [tick, countDown, hat, if_true]; split <;> simp only [expire] <;> simp_all
    · intro hk'
      simp only [tick, countDown, hat, if_true]; rw [if_pos (hone.2 hk')]; simp only [expire, h10]; congr 1

/-- The latency: with the timer stopped and an expiry pending, each step uses up one tick of the latency draw. -/
theorem run_wait {s : State} (hi : s.inputs = []) (ha : s.tmrArmed = false) (hp : s.tmrPend = true) (k : Nat)
    (hk : k ≤ s.lat) :
    ∃ t, runSteps k s = .next t ∧ t.now = s.now + k ∧ t.lat = s.lat - k ∧ t.tmrPend = true ∧
      t.tmrArmed = false ∧ t.inputs = [] ∧ t.cnt = s.cnt ∧ liveWords t = liveWords s := by
  induction k with
  | zero => exact ⟨s, rfl, by simp, by simp, hp, ha, hi, rfl, rfl⟩
  | succ k ih =>
    obtain ⟨t, hr, h1, h2, h3, h4, h5, h6, h7⟩ := ih (by omega)
    have hs := step_tick (s := t) h5 (by simp [expiryDue]; omega)
    refine ⟨tick t, runSteps_snoc k hr hs, by simp; omega, ?_, ?_, ?_, by simp [h5], by simp [h6],
      by rw [liveWords_tick, h7]⟩
    · simp [tick, countDown, h4]; omega
    · simp [tick, countDown, h4, h3]
    · simp [tick, countDown, h4]

/-- The count and then the latency: the EXPIRY is due at their sum, and not before. -/
theorem run_to_expiry {s : State} (hi : s.inputs = []) (ha : s.tmrArmed = true) (hp : s.tmrPend = false)
    (hc : s.tmrCount ≠ 0#32) :
    (∃ u, runSteps (s.tmrCount.toNat + Config.latencyDraw (s.draws + s.tmrCount.toNat - 1)) s = .next u ∧
      expiryDue u = true ∧ u.cnt = s.cnt ∧ liveWords u = liveWords s ∧
      u.now = s.now + s.tmrCount.toNat + Config.latencyDraw (s.draws + s.tmrCount.toNat - 1)) ∧
    ∀ k < s.tmrCount.toNat + Config.latencyDraw (s.draws + s.tmrCount.toNat - 1),
      ∃ u, runSteps k s = .next u ∧ expiryDue u = false := by
  obtain ⟨m, hm, m1, m2, m3, m4, m5, m6, m7, m8, m9, m10, ml, mw⟩ := run_count hi ha hp _ (Nat.le_refl _) hc
  have mp : m.tmrPend = true := m4.2 rfl
  have ma : m.tmrArmed = false := by rw [← Bool.not_eq_true, m3]; omega
  have ml := ml rfl
  refine ⟨?_, fun k hk => ?_⟩
  · obtain ⟨u, hu, u1, u2, u3, u4, u5, u6, u7⟩ := run_wait m9 ma mp m.lat (Nat.le_refl _)
    rw [ml] at hu u1
    exact ⟨u, by rw [runSteps_add _ _ hm, hu], by simp [expiryDue, u3]; omega, by omega, u7.trans mw, by omega⟩
  · by_cases hk' : k < s.tmrCount.toNat
    · obtain ⟨u, hu, u1, u2, u3, u4, -⟩ := run_count hi ha hp k (by omega) hc
      exact ⟨u, hu, by simp [expiryDue, show u.tmrPend = false by rw [← Bool.not_eq_true, u4]; omega]⟩
    · obtain ⟨u, hu, u1, u2, u3, u4, u5, u6, -⟩ := run_wait m9 ma mp (k - s.tmrCount.toNat) (by omega)
      refine ⟨u, ?_, by simp [expiryDue]; omega⟩
      rw [show k = s.tmrCount.toNat + (k - s.tmrCount.toNat) by omega, runSteps_add _ _ hm, hu]

/-! ### How far away the EXPIRY is, with agents outside the block moving -/

/-- The EXPIRY is n ticks away: the count and the latency draw of its expiry while the timer counts, the rest of the draw
once the expiry is pending (rules R179, R182). -/
structure TicksToExpiry (n : Nat) (s : State) : Prop where
  /-- The timer counts exactly if no expiry is pending (rule R180). -/
  oneShot : s.tmrArmed = !s.tmrPend
  /-- An armed count is not zero (rule R181). -/
  counting : s.tmrArmed = true → s.tmrCount ≠ 0#32
  /-- What is left. -/
  left : n =
    if s.tmrArmed then s.tmrCount.toNat + Config.latencyDraw (s.draws + s.tmrCount.toNat - 1) else s.lat

/-- The EXPIRY is due exactly when no tick is left. -/
theorem TicksToExpiry.due {n : Nat} {s : State} (h : TicksToExpiry n s) : expiryDue s = decide (n = 0) := by
  obtain ⟨a, b, c⟩ := h
  unfold expiryDue
  cases hp : s.tmrPend with
  | true => simp [hp] at a; simp [a] at c; simp [c]
  | false =>
    simp [hp] at a; simp [a] at b c
    have : s.tmrCount.toNat ≠ 0 := fun h => b (BitVec.eq_of_toNat_eq h)
    simp; omega

/-- A move that leaves the timer, the latency and the draws alone (an ENQUEUE, a binding, a change of the bus level) does
not move the EXPIRY. -/
theorem TicksToExpiry.of_eq {n : Nat} {s t : State} (h : TicksToExpiry n s) (armed : t.tmrArmed = s.tmrArmed)
    (pend : t.tmrPend = s.tmrPend) (count : t.tmrCount = s.tmrCount) (lat : t.lat = s.lat)
    (draws : t.draws = s.draws) : TicksToExpiry n t where
  oneShot := by rw [armed, pend]; exact h.oneShot
  counting := by rw [armed, count]; exact h.counting
  left := by rw [armed, count, lat, draws]; exact h.left

/-- A tick takes one off. -/
theorem TicksToExpiry.tick {n : Nat} {s : State} (h : TicksToExpiry (n + 1) s) : TicksToExpiry n (tick s) := by
  obtain ⟨a, b, c⟩ := h
  cases ha : s.tmrArmed with
  | false =>
    simp only [ha, Bool.false_eq_true, if_false] at c
    have hp : s.tmrPend = true := by simpa [ha] using a
    constructor <;> simp [Machine.tick, countDown, ha, hp]; omega
  | true =>
    simp only [ha, if_true] at c
    have hp : s.tmrPend = false := by simpa [ha] using a
    have hc : s.tmrCount.toNat ≠ 0 := fun h => b ha (BitVec.eq_of_toNat_eq h)
    have hs : (s.tmrCount - 1#32).toNat = s.tmrCount.toNat - 1 := by simp only [BitVec.toNat_sub]; simp; omega
    by_cases h1 : s.tmrCount - 1#32 = 0#32
    · have h2 : s.tmrCount.toNat = 1 := by rw [h1] at hs; simp at hs; omega
      rw [h2] at c
      constructor <;> simp [Machine.tick, countDown, ha, h1, expire]; simp at c; omega
    · constructor
      · simp [Machine.tick, countDown, ha, h1, hp]
      · simp [Machine.tick, countDown, ha, h1]
      · simp only [Machine.tick, countDown, ha, h1, if_true, if_false]
        have h2 : s.tmrCount.toNat ≠ 1 := fun h => h1 (BitVec.eq_of_toNat_eq (by rw [hs, h]; rfl))
        rw [hs, show s.draws + 1 + (s.tmrCount.toNat - 1) - 1 = s.draws + s.tmrCount.toNat - 1 by omega]
        omega

/-! ### Runs of effects -/

theorem runEffects_append (a b : List (Bool × Instr)) (s : State) :
    runEffects (a ++ b) s = andThen (runEffects a s) (runEffects b) := by
  induction a generalizing s with
  | nil => rfl
  | cons x a ih =>
    obtain ⟨l, i⟩ := x
    simp only [List.cons_append, runEffects]
    cases exec i { s with env := l } <;> simp [andThen, ih]

/-- From a state that meets the invariant every run of effects answers a next state that meets it. -/
theorem runEffects_next (acts : List (Bool × Instr)) {s : State} (h : Inv s) :
    ∃ t, runEffects acts s = .next t ∧ Inv t := by
  induction acts generalizing s with
  | nil => exact ⟨s, rfl, h⟩
  | cons x acts ih =>
    obtain ⟨l, i⟩ := x
    obtain ⟨u, hu, hi⟩ := exec_next (s := { s with env := l }) (h.of_eq rfl rfl rfl rfl rfl rfl rfl rfl rfl) i
    obtain ⟨t, ht, hti⟩ := ih hi
    exact ⟨t, by rw [runEffects, hu]; exact ht, hti⟩

end Sys2Proof.Machine
end

