-- ==== Sys2Proof/Tests/Slice0.lean ====
section
/-! SUPPORT. The model's own tests. Expected values are the spec's: the worked vectors of 95_test_vectors.md (named V-…
below), the examples of 30_encoding.md and the words its layout rule R81 gives. After them one witness for each
obligation that has hypotheses: concrete states and operands that meet them. -/

namespace Sys2Proof.Tests

open Sys2Proof Sys2Proof.Machine

/-! ### Small configurations and states -/

/-- Four slots, LINEAR, the other parameters at their defaults, P = 100, one tick a µs. -/
def linear4 : Config where
  cap := 4
  qdisc := .linear
  minHoldUs := 5
  idlePollUs := 100
  ticksPerUs := 1
  w1LowUs := 6
  rdLowUs := 6
  readByteClear := none

/-- The same with RING. -/
def ring4 : Config := { linear4 with qdisc := .ring }

/-- The other admitted values of the bit times and of the clear. -/
def other4 : Config where
  cap := 4
  qdisc := .ring
  minHoldUs := 5
  idlePollUs := 100
  ticksPerUs := 65537
  w1LowUs := 5
  rdLowUs := 5
  readByteClear := some 3

/-- The reset state with the level of the bus high. -/
def fresh (c : Config) : State := { State.resetWith c with env := true }

/-- `fresh` with these words live from slot 0 on. -/
def holding (c : Config) (ws : List Word) : State :=
  { fresh c with
    q := (List.range ws.length).zip ws
    wr := match c.qdisc with
      | .linear => ws.length
      | .ring => ws.length % c.cap
    cnt := ws.length }

/-- `holding`, with an EXPIRY due now. -/
def due (c : Config) (ws : List Word) : State :=
  { holding c ws with tmrArmed := false, tmrPend := true, tmrCount := 0#32 }

/-- A view of the next state, if there is one. -/
def view {α : Type} (r : Result) (f : State → α) : Option α :=
  match r with
  | .next s => some (f s)
  | _ => none

/-! ### Well-formedness -/

theorem test_wellFormed_largest : (Instr.transferByte 65535 (some 255)).wellFormed = true := by decide
theorem test_wellFormed_refuses_hold : (Instr.busLow 65536 none).wellFormed = false := by decide
theorem test_wellFormed_refuses_handle : (Instr.sampleBit 5 (some 256)).wellFormed = false := by decide

/-! ### Decode: HOLD, CBID, CBV, RSVD, KIND written out bit by bit (rule R81) -/

theorem test_decode_busLow :
    decode 0b00000001111000000000000000000000#32 = .action (.busLow 480 none) := by decide
theorem test_decode_releaseBus :
    decode 0b00000000010001100000000000000001#32 = .action (.releaseBus 70 none) := by decide
theorem test_decode_sampleBit :
    decode 0b00000001100110100000000110000010#32 = .action (.sampleBit 410 (some 1)) := by decide
theorem test_decode_transferByte :
    decode 0b00000000000000000000001010000011#32 = .action (.transferByte 0 (some 2)) := by decide
theorem test_decode_waitForBusHigh :
    decode 0b00000000011001000000000000000100#32 = .action (.waitForBusHigh 100 none) := by decide
theorem test_decode_clearShiftRegister :
    decode 0b00000000000001010000000000000101#32 = .action (.clearShiftRegister 5 none) := by decide
/-- V-E15, V-E20. -/
theorem test_decode_callbacks :
    decode 0x0000FF83#32 = .action (.transferByte 0 (some 255)) ∧
    decode 0x00000380#32 = .action (.busLow 0 (some 3)) := by decide
/-- V-E16 to V-E19. -/
theorem test_decode_reserved :
    decode 0x00000006#32 = .reserved [.rsvdKind] ∧ decode 0x00000007#32 = .reserved [.rsvdKind] ∧
    decode 0x00000040#32 = .reserved [.rsvdBits] ∧ decode 0x0000FF00#32 = .reserved [.rsvdBits] ∧
    decode 0x0000000F#32 = .reserved [.rsvdKind, .rsvdBits] := by decide
/-- V-E3, V-E9, V-E10. -/
theorem test_encode_callbacks :
    encode (.sampleBit 410 (some 1)) = 0x019A0182#32 ∧ encode (.sampleBit 55 (some 7)) = 0x00370782#32 ∧
    encode (.transferByte 0 (some 2)) = 0x00000283#32 := by decide
theorem test_table_word :
    decodeTableWord 32 0x00640004 = some (.waitForBusHigh 100 none) ∧ decodeTableWord 32 0x00000007 = none := by
  decide

/-! ### ENQUEUE -/

/-- V-Q1. -/
theorem test_enqueue_first :
    view (enqueue 0x003C0000#32 (fresh linear4)) (fun t => (t.q, t.events)) =
      some ([(0, 0x003C0000#32)], [(0, .enqueued 0x003C0000#32)]) ∧
    view (enqueue 0x003C0000#32 (fresh linear4)) (fun t => (t.rd, t.wr, t.cnt)) = some (0, 1, 1) := by decide
/-- V-Q2, V-Q3, V-Q4. -/
theorem test_enqueue_ill_formed :
    view (enqueue 0x00000006#32 (fresh linear4)) (fun t => (t.fault, t.cnt, t.events)) =
      some (0b01#2, 0, [(0, .faulted 0x00000006#32 [.rsvdKind])]) ∧
    view (enqueue 0x00000042#32 (fresh linear4)) (fun t => (t.fault, t.cnt)) = some (0b10#2, 0) ∧
    view (enqueue 0x0000000F#32 (fresh linear4)) (fun t => (t.fault, t.cnt)) = some (0b11#2, 0) := by decide
/-- V-Q6 with CAP = 4, under both disciplines. -/
theorem test_enqueue_capacity :
    view (enqueueAll (List.replicate 5 0x00050004#32) (fresh linear4)) (fun t => (t.cnt, t.wr, t.drops, t.fault)) =
      some (4, 4, 1, 0#2) ∧
    view (enqueueAll (List.replicate 5 0x00050004#32) (fresh ring4)) (fun t => (t.cnt, t.drops, t.fault)) =
      some (4, 1, 0#2) := by decide
/-- V-Q7. -/
theorem test_enqueue_fault_before_capacity :
    view (enqueue 0x00000007#32 (holding linear4 (List.replicate 4 0x00050004#32)))
      (fun t => (t.fault, t.drops, t.cnt)) = some (0b01#2, 0, 4) := by decide
/-- V-Q9: the slot that the EXPIRY freed is the next one used. -/
theorem test_ring_wraps :
    view (andThen (expiry (due ring4 (List.replicate 4 0x00050004#32))) (enqueue 0x00640004#32))
      (fun t => (Memory.read t.q 0, t.rd, t.wr, t.cnt)) = some (some 0x00640004#32, 1, 1, 4) := by decide
/-- V-Q10: under LINEAR an execution returns no capacity until the queue is empty. -/
theorem test_linear_does_not_reuse :
    view (andThen (expiry (due linear4 (List.replicate 4 0x00050004#32))) (enqueue 0x00640004#32))
      (fun t => (t.rd, t.wr, t.cnt, t.drops)) = some (1, 4, 3, 1) := by decide
/-- V-F2. -/
theorem test_faults_accumulate :
    view (enqueue 0x00000100#32 { fresh linear4 with fault := 0b01#2 }) (fun t => t.fault) = some 0b11#2 := by decide

/-! ### EXPIRY -/

/-- V-X1. -/
theorem test_expiry_empty :
    view (step (due linear4 [])) (fun t => (t.tmrPend, t.tmrCount, t.tmrArmed, t.events)) =
      some (false, 100#32, true, [(0, .armed 100)]) := by decide
/-- V-X2. -/
theorem test_expiry_last_entry :
    view (step (due linear4 [0x003C0000#32])) (fun t => (t.rd, t.wr, t.cnt)) = some (0, 0, 0) ∧
    view (step (due linear4 [0x003C0000#32])) (fun t => (t.lineDir, t.tmrCount, t.events)) =
      some (.outputLow, 60#32,
        [(0, .armed 60), (0, .executed 0x003C0000#32), (0, .dir .outputLow)]) := by decide
/-- V-X3. -/
theorem test_expiry_transfer :
    view (step { due linear4 [0x00000283#32] with sr := 0xA5#8 }) (fun t => (t.sr, t.tmrCount, t.events)) =
      some (0xA5#8, 5#32,
        [(0, .armed 5), (0, .executed 0x00000283#32), (0, .callback 2 0xA5#8)]) := by decide
/-- V-X5: the callback's ENQUEUE lands behind the advance. -/
theorem test_callback_enqueues :
    view (step { due linear4 [0x019A0182#32] with env := false, bindings := [(1, [(0x00#8, [0x003C0000#32])])] })
      (fun t => (Memory.read t.q 0, t.wr, callbacks t.events)) =
      some (some 0x003C0000#32, 1, [(1, 0x00#8)]) := by decide
/-- V-X6. -/
theorem test_ring_head_wraps :
    view (step { due ring4 [0x00050004#32, 0x00050004#32, 0x00050004#32, 0x00050004#32] with
      rd := 3, cnt := 2, wr := 1 }) (fun t => (t.rd, t.cnt)) = some (0, 1) := by decide
/-- V-T1 with a count of 2: the second tick is the expiry. -/
theorem test_timer_expires :
    view (runSteps 1 { fresh linear4 with tmrCount := 2#32 }) (fun t => (t.tmrCount, t.tmrArmed, t.tmrPend)) =
      some (1#32, true, false) ∧
    view (runSteps 2 { fresh linear4 with tmrCount := 2#32 }) (fun t => (t.tmrCount, t.tmrArmed, t.tmrPend)) =
      some (0#32, false, true) := by decide
/-- V-T2: the largest count fits. -/
theorem test_largest_count : (arm 65535 (fresh other4)).tmrCount = 4294967295#32 := by decide

/-! ### The actions and the line -/

/-- V-A2, V-A3. -/
theorem test_line_actions :
    view (exec (.busLow 60 none) { fresh linear4 with lineDir := .outputLow }) (fun t => (t.lineDir, t.events)) =
      some (.outputLow, [(0, .dir .outputLow)]) ∧
    view (exec (.releaseBus 70 none) { fresh linear4 with lineDir := .outputLow }) (fun t => t.lineDir) =
      some .input := by decide
/-- V-A4: no callback on BusLow. -/
theorem test_busLow_ignores_callback :
    view (exec (.busLow 0 (some 3)) (fresh linear4)) (fun t => (t.lineDir, callbacks t.events)) =
      some (.outputLow, []) := by decide
/-- V-A7: the callback gets the bit, not SR, and the old bit 0 is lost. -/
theorem test_sampleBit_high :
    view (exec (.sampleBit 55 (some 7)) { fresh linear4 with sr := 0x01#8 }) (fun t => (t.sr, callbacks t.events)) =
      some (0x80#8, [(7, 0x01#8)]) := by decide
/-- V-A8: the block's own drive holds the line low. -/
theorem test_sampleBit_driven :
    view (exec (.sampleBit 55 none) { fresh linear4 with sr := 0xFF#8, lineDir := .outputLow })
      (fun t => (t.sr, sampledBits t.events)) = some (0x7F#8, [false]) := by decide
/-- V-A11. -/
theorem test_transferByte_without_callback :
    view (exec (.transferByte 0 none) { fresh linear4 with sr := 0x5A#8 }) (fun t => (t.sr, t.events)) =
      some (0x5A#8, []) := by decide
/-- V-A12. -/
theorem test_clearShiftRegister :
    view (exec (.clearShiftRegister 5 none) { fresh linear4 with sr := 0x5A#8, lineDir := .outputLow })
      (fun t => (t.sr, t.lineDir)) = some (0x00#8, .outputLow) := by decide
/-- V-A13. -/
theorem test_waitForBusHigh :
    view (step { due linear4 [0x00640004#32] with sr := 0x33#8, lineDir := .outputLow })
      (fun t => (t.sr, t.lineDir, t.tmrCount, sampledBits t.events)) =
      some (0x33#8, .outputLow, 100#32, []) := by decide
/-- V-B1: SR after each sample. -/
theorem test_byte_assembly :
    List.scanl (fun v b => shiftIn b v) 0x00#8 [true, true, false, true, false, false, true, false] =
      [0x00#8, 0x80#8, 0xC0#8, 0x60#8, 0xB0#8, 0x58#8, 0x2C#8, 0x96#8, 0x4B#8] := by decide

/-! ### The pseudo-instructions and the assembler -/

/-- V-E4 to V-E7. -/
theorem test_writeBit_words :
    Pseudo.words linear4 (.writeBit false) = [0x003C0000#32, 0x000A0001#32] ∧
    Pseudo.words linear4 (.writeBit true) = [0x00060000#32, 0x00400001#32] ∧
    Pseudo.words other4 (.writeBit true) = [0x00050000#32, 0x00410001#32] := by decide
/-- The table of rule R159. -/
theorem test_readByte_time :
    armedTime linear4 (Pseudo.expand linear4 (.readByte 2)) = 565 ∧
    armedTime other4 (Pseudo.expand other4 (.readByte 2)) = 570 := by decide
theorem test_assemble :
    assembleLine "SampleBit(410, cb=1)".toList = .word 0x019A0182#32 ∧
    assembleLine "BusLow(480)".toList = .word 0x01E00000#32 ∧
    assembleLine "; a comment".toList = .comment ∧
    assembleLine ".word 0x0000000F".toList = .word 0x0000000F#32 := by decide
theorem test_assemble_refuses :
    assembleLine "BusLow(65536)".toList = .refused .holdRange ∧
    assembleLine "BusLow(5, cb=256)".toList = .refused .handleRange ∧
    assembleLine "buslow(5)".toList = .refused .unknownMnemonic ∧
    assembleLine "BusLow 5".toList = .refused .malformed := by decide

/-! ### The agents outside the block -/

theorem test_host_move :
    view (step { fresh linear4 with inputs := [.enqueue 0x003C0000#32, .reset] }) (fun t => (t.cnt, t.now, t.inputs)) =
      some (1, 0, [.reset]) := by decide
theorem test_reset_move :
    view (step { due linear4 [0x003C0000#32] with inputs := [.reset], sr := 0x33#8, fault := 0b11#2 })
      (fun t => (t.cnt, t.sr, t.fault, t.tmrCount, t.tmrArmed, t.tmrPend)) =
      some (0, 0x00#8, 0#2, 100#32, true, false) := by decide
/-- A word placed by withFetchWord after reset is the one the next step runs. -/
theorem test_fetch_word_after_reset :
    view (step (State.reset.withFetchWord 32 0x01E00000)) (fun t => (t.lineDir, executedWords t.events)) =
      some (.outputLow, [0x01E00000#32]) := by decide

/-! ### Witnesses: concrete states and operands that meet an obligation's hypotheses -/

/-- The invariant of a concrete state, each part by evaluation. -/
theorem inv_of_check {s : State} (store : Memory.wf s.q) (bounded : ∀ e ∈ s.q, e.1 < s.cfg.cap)
    (indices : indicesOk s) (live : ∀ k < s.cnt, (liveWord s k).any wfWord = true)
    (oneShot : s.tmrArmed = !s.tmrPend) (counting : s.tmrArmed = true → s.tmrCount ≠ 0#32)
    (expired : s.tmrPend = true → s.tmrCount = 0#32) (bound : Memory.wf s.bindings) : Inv s :=
  ⟨store, bounded, indices, fun k hk => (Option.any_eq_true _ _).1 (live k hk), oneShot, counting, expired, bound⟩

theorem next_of_view {α : Type} {r : Result} {f : State → α} {a : α} (h : view r f = some a) :
    ∃ t, r = .next t ∧ f t = a := by
  cases r with
  | next s => exact ⟨s, rfl, by simpa [view] using h⟩
  | fault e => cases h
  | refused e => cases h

/-- One live BusLow(60), its EXPIRY due. -/
def oneDue (c : Config) : State := due c [0x003C0000#32]
/-- Two live words, the EXPIRY of the first due. -/
def twoDue (c : Config) : State := due c [0x003C0000#32, 0x000A0001#32]
/-- A full queue of four words. -/
def fullQueue (c : Config) : State := holding c (List.replicate 4 0x00050004#32)
/-- One live SampleBit with callback 1, whose function ENQUEUEs BusLow(60). -/
def callbackDue : State :=
  { due linear4 [0x019A0182#32] with env := false, bindings := [(1, [(0x00#8, [0x003C0000#32])])] }

theorem inv_oneDue_linear : Inv (oneDue linear4) := by
  refine inv_of_check ?_ ?_ ?_ ?_ ?_ ?_ ?_ ?_ <;> first | decide | exact ⟨by decide, by decide, by decide⟩
theorem inv_oneDue_ring : Inv (oneDue ring4) := by
  refine inv_of_check ?_ ?_ ?_ ?_ ?_ ?_ ?_ ?_ <;> first | decide | exact ⟨by decide, by decide, by decide⟩
theorem inv_twoDue_linear : Inv (twoDue linear4) := by
  refine inv_of_check ?_ ?_ ?_ ?_ ?_ ?_ ?_ ?_ <;> first | decide | exact ⟨by decide, by decide, by decide⟩
theorem inv_fresh_linear : Inv (fresh linear4) := by
  refine inv_of_check ?_ ?_ ?_ ?_ ?_ ?_ ?_ ?_ <;> first | decide | exact ⟨by decide, by decide, by decide⟩
theorem inv_fresh_ring : Inv (fresh ring4) := by
  refine inv_of_check ?_ ?_ ?_ ?_ ?_ ?_ ?_ ?_ <;> first | decide | exact ⟨by decide, by decide, by decide⟩
theorem inv_callbackDue : Inv callbackDue := by
  refine inv_of_check ?_ ?_ ?_ ?_ ?_ ?_ ?_ ?_ <;> first | decide | exact ⟨by decide, by decide, by decide⟩

theorem witness_DecodeAndEncodeAgree :
    wfWord 0xFFFFFF85#32 = true ∧ wfWord 0x00000006#32 = false ∧ wfWord 0x00000008#32 = false ∧
    (Instr.clearShiftRegister 65535 (some 255)).wellFormed = true ∧
    decode 0xFFFFFF85#32 = .action (.clearShiftRegister 65535 (some 255)) := by decide
theorem witness_WellFormedWordConditions :
    wfWord 0x00000007#32 = false ∧ isFull (fullQueue linear4) = true ∧ isFull (fullQueue ring4) = true := by decide
theorem witness_ReservedWordsAreFaultedNotAppended :
    5 < ((0x00000006#32 : Word).extractLsb' 0 3).toNat ∧ (0x00000008#32 : Word).extractLsb' 3 4 ≠ 0#4 ∧
    ((0x00000100#32 : Word).getLsbD 7 = false ∧ (0x00000100#32 : Word).extractLsb' 8 8 ≠ 0#8) ∧
    Inv (oneDue linear4) ∧ 0x003C0000#32 ∈ liveWords (oneDue linear4) :=
  ⟨by decide, by decide, by decide, inv_oneDue_linear, by decide⟩
theorem witness_FaultBitsAreSticky :
    (∃ t, step { fresh linear4 with fault := 0b01#2, inputs := [.enqueue 0x00000008#32] } = .next t ∧
      t.fault ≠ 0b01#2) ∧
    resetMoves { fresh linear4 with fault := 0b01#2, inputs := [.enqueue 0x00000008#32] } = false ∧
    (∃ t, step { fresh linear4 with inputs := [.reset] } = .next t) ∧
    resetMoves { fresh linear4 with inputs := [.reset] } = true :=
  ⟨⟨_, rfl, by decide⟩, by decide, ⟨_, rfl⟩, by decide⟩
theorem witness_FullQueueDropsSilently :
    wfWord 0x00000000#32 = true ∧
    ((fullQueue linear4).cfg.qdisc = .linear ∧ (fullQueue linear4).wr = (fullQueue linear4).cfg.cap) ∧
    ((fullQueue ring4).cfg.qdisc = .ring ∧ (fullQueue ring4).cnt = (fullQueue ring4).cfg.cap) := by decide
theorem witness_EnqueueAppendsAtTheTail :
    wfWord 0x00000283#32 = true ∧
    (isFull (holding linear4 [0x00050004#32]) = false ∧ (holding linear4 [0x00050004#32]).wr < 4) ∧
    (isFull { fresh ring4 with wr := 3, rd := 3 } = false ∧ { fresh ring4 with wr := 3, rd := 3 }.wr < 4) := by decide
theorem witness_EnqueuesLeaveTimerLineAndShiftAlone :
    ∃ t, enqueueAll [0x003C0000#32, 0x00000006#32, 0x000A0001#32] (fresh ring4) = .next t ∧
      t.cnt = 2 := next_of_view (f := fun t => t.cnt) (by decide)
theorem witness_CapacityBoundsAcceptance : ∀ w ∈ [(0x003C0000#32 : Word), 0x00000283#32], wfWord w = true := by
  simp only [List.mem_cons, List.not_mem_nil, or_false]
  rintro w (rfl | rfl) <;> decide
theorem witness_AcceptedEntriesExecuteInOrder :
    (∃ s t, Inv s ∧ InOrder s ∧ step s = .next t ∧ slotBegins s = true) ∧
    (∃ s t, Inv s ∧ InOrder s ∧ step s = .next t ∧ slotBegins s = false ∧ resetMoves s = false) :=
  ⟨⟨{ oneDue linear4 with events := [(0, .enqueued 0x003C0000#32)] }, _,
      inv_oneDue_linear.of_eq rfl rfl rfl rfl rfl rfl rfl rfl rfl, by unfold InOrder; decide, rfl, by decide⟩,
    ⟨fresh linear4, _, inv_fresh_linear, by unfold InOrder; decide, rfl, by decide, by decide⟩⟩
theorem witness_EntriesLeaveOnlyByExecutionOrReset :
    (∃ t, Inv (twoDue linear4) ∧ step (twoDue linear4) = .next t ∧ resetMoves (twoDue linear4) = false) ∧
    (∃ s t, Inv s ∧ step s = .next t ∧ resetMoves s = true) :=
  ⟨⟨_, inv_twoDue_linear, rfl, by decide⟩,
    ⟨{ twoDue linear4 with inputs := [.reset] }, _,
      inv_twoDue_linear.of_eq rfl rfl rfl rfl rfl rfl rfl rfl rfl, rfl, by decide⟩⟩
/-- The list that fits exactly, under each discipline. -/
theorem witness_WordsThatFitAreAllAccepted :
    Inv (fresh linear4) ∧ Inv (fresh ring4) ∧ (∀ w ∈ List.replicate 4 (0x003C0000#32 : Word), wfWord w = true) ∧
    (fresh linear4).wr + (List.replicate 4 (0x003C0000#32 : Word)).length ≤ (fresh linear4).cfg.cap ∧
    (fresh ring4).cnt + (List.replicate 4 (0x003C0000#32 : Word)).length ≤ (fresh ring4).cfg.cap :=
  ⟨inv_fresh_linear, inv_fresh_ring, fun w hw => by rw [List.eq_of_mem_replicate hw]; decide, by decide, by decide⟩
theorem witness_EmptyExpiryOnlyRearms :
    blockMoves (due linear4 []) = true ∧ expiryDue (due linear4 []) = true ∧ (due linear4 []).cnt = 0 ∧
    (due linear4 []).inputs = [] := by decide
/-- A hold above the floor, and one below it. -/
theorem witness_ArmedDurationHasTheFloor :
    (∃ t, slotBegins (oneDue linear4) = true ∧ Memory.read (oneDue linear4).q (oneDue linear4).rd = some 0x003C0000#32 ∧
      step (oneDue linear4) = .next t) ∧
    (∃ t, slotBegins (due ring4 [0x00000283#32]) = true ∧
      Memory.read (due ring4 [0x00000283#32]).q (due ring4 [0x00000283#32]).rd = some 0x00000283#32 ∧
      step (due ring4 [0x00000283#32]) = .next t) :=
  ⟨⟨_, by decide, by decide, rfl⟩, ⟨_, by decide, by decide, rfl⟩⟩
theorem witness_AdvanceRemovesTheHead :
    (Inv (oneDue linear4) ∧ (oneDue linear4).cnt = 1 ∧ (oneDue linear4).cfg.qdisc = .linear) ∧
    (Inv (twoDue linear4) ∧ (twoDue linear4).cnt ≠ 0 ∧ (twoDue linear4).cnt ≠ 1 ∧
      Memory.read (twoDue linear4).q (twoDue linear4).rd = some 0x003C0000#32) ∧
    (Inv (oneDue ring4) ∧ (oneDue ring4).cnt ≠ 0 ∧ (oneDue ring4).cfg.qdisc = .ring ∧
      Memory.read (oneDue ring4).q (oneDue ring4).rd = some 0x003C0000#32) :=
  ⟨⟨inv_oneDue_linear, by decide, by decide⟩, ⟨inv_twoDue_linear, by decide, by decide, by decide⟩,
    ⟨inv_oneDue_ring, by decide, by decide, by decide⟩⟩
theorem witness_HeadIndexMovesOnlyAtSlots :
    (∃ t, Inv (oneDue linear4) ∧ step (oneDue linear4) = .next t ∧ resetMoves (oneDue linear4) = false ∧
      slotBegins (oneDue linear4) = true ∧ (oneDue linear4).cnt = 1) ∧
    (∃ t, Inv (twoDue linear4) ∧ step (twoDue linear4) = .next t ∧ slotBegins (twoDue linear4) = true ∧
      (twoDue linear4).cnt ≠ 1) ∧
    (∃ t, Inv (oneDue ring4) ∧ step (oneDue ring4) = .next t ∧ slotBegins (oneDue ring4) = true) ∧
    (∃ t, Inv (fresh linear4) ∧ step (fresh linear4) = .next t ∧ slotBegins (fresh linear4) = false) :=
  ⟨⟨_, inv_oneDue_linear, rfl, by decide, by decide, by decide⟩, ⟨_, inv_twoDue_linear, rfl, by decide, by decide⟩,
    ⟨_, inv_oneDue_ring, rfl, by decide⟩, ⟨_, inv_fresh_linear, rfl, by decide⟩⟩
theorem witness_StepRunsTheDecodedAction :
    blockMoves (oneDue linear4) = true ∧ expiryDue (oneDue linear4) = true ∧ (oneDue linear4).cnt ≠ 0 ∧
      (oneDue linear4).rd < (oneDue linear4).cfg.cap ∧
      Memory.read (oneDue linear4).q (oneDue linear4).rd = some 0x003C0000#32 ∧
      decode 0x003C0000#32 = .action (.busLow 60 none) := by decide
/-- Four states that no run reaches: a reserved head, a head index and a tail index of CAP, a head never written. -/
theorem witness_UnreachableHeadsStopByName :
    (expiryDue (due linear4 [0x00000006#32]) = true ∧ (due linear4 [0x00000006#32]).cnt ≠ 0 ∧
      Memory.read (due linear4 [0x00000006#32]).q (due linear4 [0x00000006#32]).rd = some 0x00000006#32 ∧
      wfWord 0x00000006#32 = false) ∧
    (expiryDue { oneDue ring4 with rd := 4 } = true ∧ { oneDue ring4 with rd := 4 }.cfg.cap ≤ 4) ∧
    (expiryDue { oneDue ring4 with q := [] } = true ∧ { oneDue ring4 with q := [] }.rd < 4 ∧
      Memory.read { oneDue ring4 with q := [] }.q { oneDue ring4 with q := [] }.rd = none) ∧
    (isFull { fresh ring4 with wr := 4 } = false ∧ { fresh ring4 with wr := 4 }.cfg.cap ≤ 4) := by decide
theorem witness_StepDeliversWaitingMoves :
    (blockMoves (fresh linear4) = true ∧ expiryDue (fresh linear4) = false) ∧
    { fresh linear4 with inputs := [.enqueue 0x00000000#32] }.inputs = .enqueue 0x00000000#32 :: [] ∧
    { fresh linear4 with inputs := [.env false] }.inputs = .env false :: [] ∧
    { fresh linear4 with inputs := [.bind 255 [(0x00#8, [])]] }.inputs = .bind 255 [(0x00#8, [])] :: [] ∧
    { fresh linear4 with inputs := [.reset] }.inputs = .reset :: [] := by decide
/-- The first count, the last one, and a stopped timer. -/
theorem witness_ExpiryComesExactlyAtTheEndOfTheCount :
    (1 ≤ 65535 ∧ (fresh linear4).tmrPend = false ∧ (fresh linear4).inputs = [] ∧ 0 ≤ 1 * (fresh linear4).cfg.ticksPerUs ∧
      65535 ≤ 65535 * (fresh linear4).cfg.ticksPerUs) ∧
    (oneDue linear4).tmrArmed = false := by decide
theorem witness_SlotsAreSpacedByHoldAndLatency :
    ∃ t, slotBegins (oneDue linear4) = true ∧ (oneDue linear4).inputs = [] ∧
      Memory.read (oneDue linear4).q (oneDue linear4).rd = some 0x003C0000#32 ∧ step (oneDue linear4) = .next t :=
  ⟨_, by decide, by decide, by decide, rfl⟩
/-- A counting timer; and moves of every kind but a reset, one tick among them, which is fewer than the poll. -/
theorem witness_FirstExpiryAfterReset :
    ((fresh linear4).inputs = [] ∧ (fresh linear4).tmrArmed = true ∧ (fresh linear4).tmrPend = false ∧
      (fresh linear4).tmrCount ≠ 0#32) ∧
    (∀ m ∈ [Input.enqueue 0x003C0000#32, .pass, .enqueue 0x00000006#32, .env false, .bind 1 []], m ≠ .reset) ∧
    [Input.enqueue 0x003C0000#32, .pass, .enqueue 0x00000006#32, .env false, .bind 1 []].count .pass <
      linear4.idlePollUs * linear4.ticksPerUs + Config.latencyDraw (linear4.idlePollUs * linear4.ticksPerUs) :=
  ⟨by decide, by decide,
    Nat.lt_of_lt_of_le (by decide : _ < linear4.idlePollUs * linear4.ticksPerUs) (Nat.le_add_right _ _)⟩
/-- A pending expiry that is taken; a tick that sets TMR_PEND; a tick that does not. -/
theorem witness_OnlyExpiryAcknowledges :
    (∃ t, step (oneDue linear4) = .next t ∧ resetMoves (oneDue linear4) = false ∧ (oneDue linear4).tmrPend = true) ∧
    (∃ s t, step s = .next t ∧ resetMoves s = false ∧ s.tmrPend = false ∧ t.tmrPend = true) ∧
    (∃ s t, step s = .next t ∧ resetMoves s = false ∧ s.tmrPend = false ∧ t.tmrPend = false) :=
  ⟨⟨_, rfl, by decide, by decide⟩, ⟨{ fresh linear4 with tmrCount := 1#32 }, _, rfl, by decide, by decide, by decide⟩,
    ⟨fresh linear4, _, rfl, by decide, by decide, by decide⟩⟩
theorem witness_ArmLoadsTheTimer :
    (∃ t, step (due linear4 []) = .next t ∧ blockMoves (due linear4 []) = true ∧ expiryDue (due linear4 []) = true ∧
      (due linear4 []).cnt = 0) ∧
    (∃ t, step (oneDue linear4) = .next t ∧ blockMoves (oneDue linear4) = true ∧ expiryDue (oneDue linear4) = true ∧
      (oneDue linear4).cnt ≠ 0) ∧
    (∃ s t, step s = .next t ∧ resetMoves s = true) ∧
    (∃ t, step (fresh linear4) = .next t ∧ resetMoves (fresh linear4) = false ∧
      (blockMoves (fresh linear4) && expiryDue (fresh linear4)) = false ∧ t.tmrArmed = true) :=
  ⟨⟨_, rfl, by decide, by decide, by decide⟩, ⟨_, rfl, by decide, by decide, by decide⟩,
    ⟨{ fresh linear4 with inputs := [.reset] }, _, rfl, by decide⟩, ⟨_, rfl, by decide, by decide, by decide⟩⟩
theorem witness_TimePassesOnlyInTicks :
    (∃ t, step (fresh linear4) = .next t ∧ resetMoves (fresh linear4) = false) ∧
    (∃ s t, step s = .next t ∧ resetMoves s = true) :=
  ⟨⟨_, rfl, by decide⟩, ⟨{ fresh linear4 with inputs := [.reset] }, _, rfl, by decide⟩⟩
theorem witness_LineLevelIsOwnDriveOrEnvironment :
    (fresh linear4).lineDir = .input ∧ { fresh linear4 with lineDir := .outputLow }.lineDir = .outputLow ∧
    (∃ s t, step s = .next t ∧ t.env ≠ s.env) :=
  ⟨by decide, by decide, ⟨{ fresh linear4 with inputs := [.env false] }, _, rfl, by decide⟩⟩
theorem witness_TransferByteDeliversShiftRegister :
    ∃ t, exec (.transferByte 0 (some 2)) (fresh linear4) = .next t := ⟨_, rfl⟩
theorem witness_CallbacksOnOtherKindsAreIgnored :
    ∀ k ∈ [Instr.busLow, Instr.releaseBus, Instr.waitForBusHigh, Instr.clearShiftRegister],
      ∃ t, exec (k 5 (some 3)) (fresh linear4) = .next t := by
  simp only [List.mem_cons, List.not_mem_nil, or_false]
  rintro k (rfl | rfl | rfl | rfl) <;> exact ⟨_, rfl⟩
theorem witness_CallbackActionsComplete : Inv callbackDue := inv_callbackDue
theorem witness_LineAndClearActionsFrame :
    ∀ i ∈ [Instr.busLow 5 none, .releaseBus 5 none, .waitForBusHigh 5 none, .clearShiftRegister 5 none],
      ∃ t, exec i (fresh linear4) = .next t := by
  simp only [List.mem_cons, List.not_mem_nil, or_false]
  rintro i (rfl | rfl | rfl | rfl) <;> exact ⟨_, rfl⟩
/-- With a callback that ENQUEUEs, and without one. -/
theorem witness_CallbackActionsFrame :
    (∃ t, exec (.sampleBit 5 (some 1)) callbackDue = .next t ∧ t.cnt = callbackDue.cnt + 1) ∧
    (∃ t, exec (.transferByte 5 none) callbackDue = .next t) := ⟨⟨_, rfl, by decide⟩, ⟨_, rfl⟩⟩
theorem witness_OneCallbackPerCallbackAction :
    (∃ t, exec (.sampleBit 5 (some 1)) callbackDue = .next t) ∧ (∃ t, exec (.busLow 5 (some 1)) callbackDue = .next t) :=
  ⟨⟨_, rfl⟩, ⟨_, rfl⟩⟩
/-- V-B3 with a WaitForBusHigh among the samples, and V-B6's three samples of a cleared register. -/
theorem witness_EightSamplesAssembleTheByte :
    (∃ acts t, (∀ a ∈ acts, a.2.kind ≠ 5) ∧ runEffects acts (fresh linear4) = .next t ∧
      sampledBits t.events = sampledBits (fresh linear4).events ++ [true, false, true, false, false, true, false, true]) ∧
    (∃ acts t, (∀ a ∈ acts, a.2.kind ≠ 5) ∧ runEffects acts (fresh linear4) = .next t ∧
      sampledBits t.events = sampledBits (fresh linear4).events ++ [true, true, true] ∧ (fresh linear4).sr = 0#8) :=
  ⟨⟨(false, .waitForBusHigh 5 none) ::
      [true, false, true, false, false, true, false, true].map (fun b => (b, .sampleBit 55 none)),
      _, by decide, rfl, by decide⟩,
    ⟨[true, true, true].map (fun b => (b, .sampleBit 55 none)), _, by decide, rfl, by decide, by decide⟩⟩
theorem witness_CallbackEnqueuesLandBehindTheAdvance :
    ∃ t, Inv callbackDue ∧ slotBegins callbackDue = true ∧ callbackDue.cfg.qdisc = .linear ∧ callbackDue.cnt = 1 ∧
      Memory.read callbackDue.q callbackDue.rd = some 0x019A0182#32 ∧
      decode 0x019A0182#32 = .action (.sampleBit 410 (some 1)) ∧
      hostWords callbackDue.bindings 1 (zextBit (level callbackDue)) = 0x003C0000#32 :: [] ∧
      wfWord 0x003C0000#32 = true ∧ step callbackDue = .next t :=
  ⟨_, inv_callbackDue, by decide, by decide, by decide, by decide, by decide, by decide, by decide, rfl⟩
/-- A slot, an idle step and a reset. -/
theorem witness_OnlyLineActionsMoveTheLine :
    (∃ s t, step s = .next t ∧ slotBegins s = true) ∧
    (∃ s t, step s = .next t ∧ slotBegins s = false ∧ resetMoves s = false) ∧
    (∃ s t, step s = .next t ∧ resetMoves s = true) :=
  ⟨⟨oneDue linear4, _, rfl, by decide⟩, ⟨fresh linear4, _, rfl, by decide, by decide⟩,
    ⟨{ fresh linear4 with inputs := [.reset] }, _, rfl, by decide⟩⟩
/-- The slot of a SampleBit, an idle step and a reset. -/
theorem witness_OnlySampleAndClearWriteShiftRegister :
    (∃ s t, step s = .next t ∧ slotBegins s = true) ∧
    (∃ s t, step s = .next t ∧ slotBegins s = false ∧ resetMoves s = false) ∧
    (∃ s t, step s = .next t ∧ resetMoves s = true) :=
  ⟨⟨callbackDue, _, rfl, by decide⟩, ⟨fresh linear4, _, rfl, by decide, by decide⟩,
    ⟨{ fresh linear4 with inputs := [.reset] }, _, rfl, by decide⟩⟩
theorem witness_ParametersNeverChange : ∃ t, step (fresh other4) = .next t := ⟨_, rfl⟩
theorem witness_GhostsInfluenceNothing :
    eraseGhosts (oneDue linear4) = eraseGhosts { oneDue linear4 with fault := 0b11#2, drops := 7 } ∧
    ∃ t, step (oneDue linear4) = .next t := ⟨rfl, _, rfl⟩
theorem witness_EffectsDoNotDependOnTiming :
    eraseTiming callbackDue = eraseTiming { callbackDue with tmrCount := 9#32, tmrPend := false, now := 7, draws := 3 } ∧
    ∃ t, exec (.sampleBit 5 (some 1)) callbackDue = .next t := ⟨rfl, _, rfl⟩
theorem witness_StepKeepsTheInvariant : ∃ t, Inv callbackDue ∧ step callbackDue = .next t := ⟨_, inv_callbackDue, rfl⟩
theorem witness_MachineNeverStops : Inv { oneDue linear4 with fault := 0b11#2 } :=
  inv_oneDue_linear.of_eq rfl rfl rfl rfl rfl rfl rfl rfl rfl
theorem witness_HistoryAccountsForTheState :
    ∃ t, Inv (oneDue linear4) ∧ History (oneDue linear4) ∧ step (oneDue linear4) = .next t :=
  ⟨_, inv_oneDue_linear, ⟨by decide, by decide, by decide, by decide, by decide, by decide⟩, rfl⟩
/-! Both values of each parameter that an expansion's clause names, and both ends of the operands. -/

theorem witness_WriteBitExpansions : linear4.w1LowUs = 6 ∧ other4.w1LowUs = 5 := by decide
theorem witness_ReadBitAndResetExpansions : linear4.rdLowUs = 6 ∧ other4.rdLowUs = 5 ∧ 0 ≤ 255 ∧ 255 ≤ 255 := by decide
theorem witness_WriteByteGoesLeastSignificantBitFirst : 0 < 8 ∧ 7 < 8 := by decide
theorem witness_ReadByteAndWaitExpansions :
    linear4.readByteClear = none ∧ other4.readByteClear = some 3 ∧ 0 < 8 ∧ 7 < 8 ∧
    Instr.busLow 6 none ∈ (Pseudo.expand linear4 (.readByte 255)).dropLast ∧ 255 ≤ 255 ∧ 65535 ≤ 65535 := by decide
theorem witness_ExpansionsEndReleased :
    ∃ t, (List.replicate 3 true).length = (Pseudo.expand linear4 (.reset (some 1))).length ∧
      (fresh linear4).lineDir = .input ∧
      runEffects ((List.replicate 3 true).zip (Pseudo.expand linear4 (.reset (some 1)))) (fresh linear4) = .next t :=
  ⟨_, by decide, by decide, rfl⟩
theorem witness_ReadByteDeliversTheSampledByte :
    Inv (fresh linear4) ∧
    (List.replicate 25 true).length = (Pseudo.expand linear4 (.readByte 2)).length ∧
    (List.replicate 26 true).length = (Pseudo.expand other4 (.readByte 2)).length :=
  ⟨inv_fresh_linear, by decide, by decide⟩
/-- A hold and a handle at the ends of their ranges, and past them; a name that is no mnemonic; the digits of a raw word in
either case; and lines that are words. -/
theorem witness_ActionLinesAssembleToTheirEncoding :
    (∀ ds ∈ ["65535".toList, "65536".toList, "255".toList, "256".toList], ds ≠ [] ∧ ds.all Char.isDigit = true) ∧
    mnemonicKind "BusLow".toList = some 0 ∧ ofKind 0 65535 (some 255) = some (.busLow 65535 (some 255)) ∧
    decimalValue "65535".toList = 65535 ∧ mnemonicKind "BusHigh".toList = none ∧
    "BusHigh".toList.all Char.isAlpha = true ∧
    "019A0f82".toList.map Char.toLower = hexText 0x019A0F82#32 ∧
    [".word 0x0000000f".toList, "BusLow(60)".toList].map assembleLine = [0x0000000F#32, 0x003C0000#32].map .word := by
  decide

end Sys2Proof.Tests
end

section
/-! The proofs of the scope family (00_scope.md): how time passes, and the parameters of the reset state. -/

namespace Sys2Proof

/-- In every configuration TICKS_PER_US is at most 65537, since the longest hold fits the timer: 65535 × 65537 = 2^32 − 1
(rule R14). -/
theorem Config.ticksPerUs_le (c : Config) : c.ticksPerUs ≤ 65537 := by
  have hfits : 65535 * c.ticksPerUs ≤ 4294967295 := c.ticks_range.2
  omega

namespace Machine

@[simp] theorem resetBlock_now (s : State) : (resetBlock s).now = 0 := rfl

/-- The slot of a head action, its callback included, takes no time (rule R25, decision D17). -/
theorem exec_beginSlot_now {w : Word} {i : Instr} {s t : State}
    (h : exec i (beginSlot w (acknowledge s)) = .next t) : t.now = s.now := by
  simpa using (exec_frame h).now

/-- A step that is no reset takes one unit of time if it is a tick, and none otherwise (rules R25, R109). -/
theorem step_now {s t : State} (h : step s = .next t) (hreset : resetMoves s = false) :
    t.now = s.now + (if blockMoves s = true ∧ expiryDue s = false then 1 else 0) := by
  rcases step_kinds h with ⟨-, -, -, hdue, -, -, w, i, -, -, hslot⟩ | ⟨-, -, -, hdue, -, rfl⟩ |
    ⟨-, -, hblock, hdue, rfl⟩ | ⟨-, -, hblock, w, henq⟩ | ⟨-, -, hblock, n, f, rfl⟩ | ⟨-, -, hblock, b, rfl⟩ |
    ⟨hres, -⟩
  · simpa [hdue] using exec_beginSlot_now hslot
  · simp [hdue]
  · simp [hblock, hdue]
  · simpa [hblock] using (enqueue_frame henq).now
  · simp [hblock]
  · simp [hblock]
  · simp [hreset] at hres

/-- A waiting reset is taken by the next step, which always answers (rules R200, R208). -/
theorem step_reset {s : State} (h : resetMoves s = true) : step s = .next (resetBlock (afterMove s)) := by
  unfold resetMoves at h
  split at h
  · rename_i rest hs
    simp [step, hs, deliver, afterMove]
  · cases h

/-- A reset starts time at 0 (rule R25; log entry 17). -/
theorem step_now_of_reset {s t : State} (h : step s = .next t) (hreset : resetMoves s = true) : t.now = 0 := by
  cases (step_reset hreset).symm.trans h
  exact resetBlock_now _

/-- Settles O25, by the kinds of step: only a tick moves the time on, and a reset puts it back. -/
theorem timePassesOnlyInTicks : Obligations.TimePassesOnlyInTicks :=
  fun _ _ h => ⟨step_now h, step_now_of_reset h⟩

/-- Settles O59: the defaults stand in the standard configuration, and the bounds of the two OPEN parameters are the
constraints that every configuration carries (rules R13, R14). -/
theorem resetHasTheDefaultParameters : Obligations.ResetHasTheDefaultParameters := by
  obtain ⟨hpoll, hpoll'⟩ : 5 ≤ State.reset.cfg.idlePollUs ∧ State.reset.cfg.idlePollUs ≤ 65535 :=
    State.reset.cfg.idlePoll_range
  have hticks : 1 ≤ State.reset.cfg.ticksPerUs := State.reset.cfg.ticks_range.1
  exact ⟨rfl, rfl, rfl, rfl, rfl, rfl, rfl, hpoll, hpoll', hticks, State.reset.cfg.ticksPerUs_le, rfl, rfl⟩

end Machine
end Sys2Proof
end

section
/-! The proofs of the state family (10_state.md): what a reset leaves, the invariant, what a step may write, that the
fault record and the ghosts influence nothing, and that the history accounts for the state. -/

namespace Sys2Proof.Machine

/-! ### The reset state (rules R49 to R53) -/

/-- Settles O45: the idle poll fits the timer in every configuration, the rest stands in the reset state. -/
theorem resetValues : Obligations.ResetValues := by
  intro c
  have hpoll : (BitVec.ofNat 32 (ticksOf c c.idlePollUs)).toNat = c.idlePollUs * c.ticksPerUs :=
    (ticksOf_fits c (idlePoll_between c).1 (idlePoll_between c).2).1
  exact ⟨rfl, hpoll, rfl, rfl, rfl, rfl, rfl⟩

/-- Settles O46: the store of the reset state lists no slot and its live window is empty. -/
theorem resetQueueAndLine : Obligations.ResetQueueAndLine :=
  fun _ => ⟨rfl, rfl, rfl, rfl, Memory.read_nil, rfl⟩

/-- The reset state meets the invariant: the queue is empty, and the timer counts the idle poll, which is not zero. -/
theorem Inv.resetWith (c : Config) : Inv (State.resetWith c) where
  store := .nil
  bounded := by simp [State.resetWith]
  indices := by
    have hcap := c.cap_pos
    unfold indicesOk
    cases hq : c.qdisc <;> simp [State.resetWith, hq]
    omega
  live := by simp [State.resetWith]
  oneShot := rfl
  counting := fun _ => (ticksOf_fits c (idlePoll_between c).1 (idlePoll_between c).2).2
  expired := by simp [State.resetWith]
  bound := .nil

theorem History.resetWith (c : Config) : History (State.resetWith c) where
  drops := rfl
  kindBit := BitVec.getLsbD_zero
  bitsBit := BitVec.getLsbD_zero
  line := rfl
  shift := rfl
  times := by simp [State.resetWith]

/-- Settles O47: at reset the history and the queue are empty. -/
theorem resetMeetsTheInvariants : Obligations.ResetMeetsTheInvariants :=
  ⟨fun c => ⟨Inv.resetWith c, History.resetWith c, rfl⟩, Inv.resetWith _, rfl⟩

/-! ### The invariant (rules R32, R75, R180 to R183) -/

/-- The acknowledge and the re-arm together keep the invariant, for a duration that is not zero and fits the timer. -/
theorem Inv.arm_acknowledge {s : State} (h : Inv s) {us : Nat} (hpos : 1 ≤ us) (hfits : us ≤ 65535) :
    Inv (arm us (acknowledge s)) where
  store := h.store
  bounded := h.bounded
  indices := h.indices
  live := h.live
  oneShot := rfl
  counting := fun _ => (ticksOf_fits s.cfg hpos hfits).2
  expired := by simp
  bound := h.bound

/-- The beginning of a slot keeps the invariant. -/
theorem Inv.beginSlot {s : State} (h : Inv s) (hc : s.cnt ≠ 0) (w : Word) :
    Inv (beginSlot w (acknowledge s)) := by
  obtain ⟨hpos, hfits⟩ := armedUs_range s.cfg w
  exact ((h.arm_acknowledge hpos hfits).advance hc).of_eq rfl rfl rfl rfl rfl rfl rfl rfl rfl

/-- A count that is not zero may replace that of a counting timer. -/
theorem Inv.setCount {s : State} (h : Inv s) (ha : s.tmrArmed = true) {n : BitVec 32} (hn : n ≠ 0#32) :
    Inv { s with tmrCount := n } where
  store := h.store
  bounded := h.bounded
  indices := h.indices
  live := h.live
  oneShot := h.oneShot
  counting := fun _ => hn
  expired := fun hp => by simp [h.oneShot, show s.tmrPend = true from hp] at ha
  bound := h.bound

/-- The timer may expire whenever its count is 0. -/
theorem Inv.expire {s : State} (h : Inv s) : Inv (expire { s with tmrCount := 0#32 }) where
  store := h.store
  bounded := h.bounded
  indices := h.indices
  live := h.live
  oneShot := rfl
  counting := fun ha => by cases ha
  expired := fun _ => rfl
  bound := h.bound

/-- A count of the timer keeps the invariant: it is stopped, or expires on reaching 0, or goes on (rule R182). -/
theorem Inv.countDown {s : State} (h : Inv s) : Inv (countDown s) := by
  unfold Machine.countDown
  split
  · rename_i ha
    split
    · rename_i hz
      rw [hz]
      exact h.expire
    · rename_i hz
      exact h.setCount ha hz
  · exact h

/-- A tick keeps the invariant, since beside the count it moves only the time, the latency and the draws. -/
theorem Inv.tick {s : State} (h : Inv s) : Inv (tick s) := by
  have hnow : Inv { s with now := s.now + 1, lat := s.lat - 1 } := h.of_eq rfl rfl rfl rfl rfl rfl rfl rfl rfl
  exact hnow.countDown.of_eq rfl rfl rfl rfl rfl rfl rfl rfl rfl

/-- A binding keeps the table of bindings in canonical form. -/
theorem Inv.bind {s : State} (h : Inv s) (n : Nat) (f : HostFn) :
    Inv { s with bindings := Memory.write s.bindings n f } where
  store := h.store
  bounded := h.bounded
  indices := h.indices
  live := h.live
  oneShot := h.oneShot
  counting := h.counting
  expired := h.expired
  bound := Memory.wf_write h.bound n f

/-- A reset of the running block leads to the reset state, beside the host's bindings. -/
theorem Inv.resetBlock {s : State} (h : Inv s) : Inv (resetBlock s) :=
  { Inv.resetWith s.cfg with bound := h.bound }

theorem Inv.afterMove {s : State} (h : Inv s) : Inv (afterMove s) :=
  h.of_eq rfl rfl rfl rfl rfl rfl rfl rfl rfl

/-- An outcome that answers is the one a completion lemma names, so the invariant it gives is of that state. -/
theorem Inv.of_next {r : Result} {t : State} (hr : ∃ u, r = .next u ∧ Inv u) (h : r = .next t) : Inv t := by
  obtain ⟨u, hu, hinv⟩ := hr
  cases hu.symm.trans h
  exact hinv

/-- Settles O48, by the kinds of step. -/
theorem stepKeepsTheInvariant : Obligations.StepKeepsTheInvariant := by
  intro s t hs h
  have hs' : Inv (afterMove s) := hs.afterMove
  rcases step_kinds h with ⟨-, -, -, -, hc, -, w, i, -, -, hslot⟩ | ⟨-, -, -, -, -, rfl⟩ | ⟨-, -, -, -, rfl⟩ |
    ⟨-, -, -, w, henq⟩ | ⟨-, -, -, n, f, rfl⟩ | ⟨-, -, -, b, rfl⟩ | ⟨-, -, -, rfl⟩
  · exact .of_next (exec_next (hs'.beginSlot hc w) i) hslot
  · exact hs'.arm_acknowledge (idlePoll_between s.cfg).1 (idlePoll_between s.cfg).2
  · exact hs'.tick
  · exact .of_next (enqueue_next hs' w) henq
  · exact hs'.bind n f
  · exact hs'.of_eq rfl rfl rfl rfl rfl rfl rfl rfl rfl
  · exact hs'.resetBlock

/-! ### What a step may write (rules R34 to R36, R46) -/

/-- The slot of a head action: the step is the effect of the action its word decodes to (rule R107). -/
theorem step_slot {s t : State} (h : step s = .next t) (hslot : slotBegins s = true) :
    ∃ w i, Memory.read s.q s.rd = some w ∧ decode w = .action i ∧
      exec i (beginSlot w (acknowledge (afterMove s))) = .next t := by
  obtain ⟨hblock, hdue, hc⟩ := (slotBegins_eq_true_iff s).1 hslot
  rw [step_block hblock] at h
  rcases blockStep_cases h with ⟨hdue', -⟩ | ⟨-, hc', -⟩ | ⟨-, -, -, hhead⟩
  · rw [afterMove_expiryDue, hdue] at hdue'
    cases hdue'
  · exact absurd hc' hc
  · exact hhead

/-- A step that is no reset and begins no slot writes neither RD nor SR nor LINE_DIR. -/
theorem step_frame_of_no_slot {s t : State} (h : step s = .next t) (hreset : resetMoves s = false)
    (hslot : slotBegins s = false) : t.rd = s.rd ∧ t.sr = s.sr ∧ t.lineDir = s.lineDir := by
  rcases step_kinds h with ⟨-, hslot', -⟩ | ⟨-, -, -, -, -, rfl⟩ | ⟨-, -, -, -, rfl⟩ |
    ⟨-, -, -, w, henq⟩ | ⟨-, -, -, n, f, rfl⟩ | ⟨-, -, -, b, rfl⟩ | ⟨hreset', -⟩
  · rw [hslot] at hslot'
    cases hslot'
  · exact ⟨rfl, rfl, rfl⟩
  · simp
  · exact ⟨(enqueue_frame henq).rd, (enqueue_frame henq).sr, (enqueue_frame henq).lineDir⟩
  · exact ⟨rfl, rfl, rfl⟩
  · exact ⟨rfl, rfl, rfl⟩
  · rw [hreset] at hreset'
    cases hreset'

/-- A reset puts back the state of reset, beside the agents outside the block (rule R200). -/
theorem step_eq_resetBlock {s t : State} (h : step s = .next t) (hreset : resetMoves s = true) :
    t = resetBlock (afterMove s) := by
  cases (step_reset hreset).symm.trans h
  rfl

/-- The slot of a head action advances RD, and its effect leaves it there. -/
theorem step_slot_rd {s t : State} (h : step s = .next t) (hslot : slotBegins s = true) :
    t.rd = headAfterAdvance s := by
  obtain ⟨w, i, -, -, hexec⟩ := step_slot h hslot
  exact (exec_frame hexec).rd

/-- Under LINEAR the head returns to 0 exactly if the removed entry was the only live one (rules R32, R35). -/
theorem headAfterAdvance_linear {s : State} (h : Inv s) (hq : s.cfg.qdisc = .linear) :
    headAfterAdvance s = if s.cnt = 1 then 0 else s.rd + 1 := by
  have hi := h.indices
  simp only [indicesOk, hq] at hi
  have hlast : s.rd + 1 = s.wr ↔ s.cnt = 1 := by omega
  simp [headAfterAdvance, hq, hlast]

/-- Settles O16: only a slot moves the head, by the advance. -/
theorem headIndexMovesOnlyAtSlots : Obligations.HeadIndexMovesOnlyAtSlots := by
  intro s t hs h hreset
  refine ⟨fun hslot => (step_frame_of_no_slot h hreset hslot).1, fun hslot hq hc => ?_, fun hslot hq hc => ?_,
    fun hslot hq => ?_⟩ <;> rw [step_slot_rd h hslot]
  · rw [headAfterAdvance_linear hs hq, if_pos hc]
  · rw [headAfterAdvance_linear hs hq, if_neg hc]
  · simp [headAfterAdvance, hq]

/-- Settles O40: the effects of the six kinds say what a slot makes of the line. -/
theorem onlyLineActionsMoveTheLine : Obligations.OnlyLineActionsMoveTheLine := by
  intro s t h
  refine ⟨fun hreset => ?_, fun hreset hslot => ?_, fun hslot => ?_⟩
  · rw [step_eq_resetBlock h hreset]
    rfl
  · obtain ⟨-, -, hline⟩ := step_frame_of_no_slot h hreset hslot
    exact hline
  · obtain ⟨w, i, hw, hi, hexec⟩ := step_slot h hslot
    exact ⟨w, i, hw, hi, (exec_sr_lineDir i _ t hexec).2⟩

/-- Settles O41: the effects of the six kinds say what a slot makes of the shift register. -/
theorem onlySampleAndClearWriteShiftRegister : Obligations.OnlySampleAndClearWriteShiftRegister := by
  intro s t h
  refine ⟨fun hreset => ?_, fun hreset hslot => ?_, fun hslot => ?_⟩
  · rw [step_eq_resetBlock h hreset]
    rfl
  · obtain ⟨-, hsr, -⟩ := step_frame_of_no_slot h hreset hslot
    exact hsr
  · obtain ⟨w, i, hw, hi, hexec⟩ := step_slot h hslot
    exact ⟨w, i, hw, hi, (exec_sr_lineDir i _ t hexec).1⟩

/-- Settles O42, by the kinds of step. -/
theorem parametersNeverChange : Obligations.ParametersNeverChange := by
  intro s t h
  rcases step_kinds h with ⟨-, -, -, -, -, -, w, i, -, -, hexec⟩ | ⟨-, -, -, -, -, rfl⟩ | ⟨-, -, -, -, rfl⟩ |
    ⟨-, -, -, w, henq⟩ | ⟨-, -, -, n, f, rfl⟩ | ⟨-, -, -, b, rfl⟩ | ⟨-, -, -, rfl⟩
  · exact (exec_frame hexec).cfg
  · rfl
  · exact tick_cfg _
  · exact (enqueue_frame henq).cfg
  all_goals rfl

/-! ### Erasures: what a part of the state influences -/

/-- An outcome, seen through an erasure of the state. -/
def mapNext (e : State → State) : Result → Result
  | .next s => .next (e s)
  | .fault r => .fault r
  | .refused r => .refused r

theorem mapNext_eq_next_iff {e : State → State} {r : Result} {u : State} :
    mapNext e r = .next u ↔ ∃ t, r = .next t ∧ e t = u := by
  cases r <;> simp [mapNext]

/-- The outcome of f, seen through the erasure e, depends only on what e keeps of the state. -/
def Blind (e : State → State) (f : State → Result) : Prop :=
  ∀ s, mapNext e (f (e s)) = mapNext e (f s)

/-- A blind operation stays blind after a change of the state that, seen through the erasure, depends only on what is
kept. -/
theorem Blind.comp {e : State → State} {f : State → Result} (hf : Blind e f) {u : State → State}
    (hu : ∀ s, e (u (e s)) = e (u s)) : Blind e (fun s => f (u s)) := fun s => by
  rw [← hf (u (e s)), hu, hf]

/-- Blind operations compose. -/
theorem Blind.andThen {e : State → State} {f g : State → Result} (hf : Blind e f) (hg : Blind e g) :
    Blind e (fun s => andThen (f s) g) := by
  have habs : ∀ r, mapNext e (Machine.andThen (mapNext e r) g) = mapNext e (Machine.andThen r g) := fun r => by
    cases r with
    | next s => exact hg s
    | fault r => rfl
    | refused r => rfl
  intro s
  rw [← habs, hf, habs]

/-- To answer the state itself is blind. -/
theorem blind_next (e : State → State) (he : ∀ s, e (e s) = e s) : Blind e .next := fun s => by
  simp [mapNext, he]

/-- Two states that a blind operation cannot tell apart lead to outcomes that stay so. -/
theorem Blind.next_of_eq {e : State → State} {f : State → Result} (hf : Blind e f) {s s' t : State}
    (hs : e s = e s') (h : f s = .next t) : ∃ t', f s' = .next t' ∧ e t = e t' := by
  have hsame : mapNext e (f s') = .next (e t) := by
    rw [← hf s', ← hs, hf s, h]
    rfl
  obtain ⟨t', ht', het⟩ := mapNext_eq_next_iff.1 hsame
  exact ⟨t', ht', het.symm⟩

/-! ### FAULT, DROPS and EVENTS influence nothing (rules R41 to R43) -/

/-- A raise of faults changes nothing that is left when the ghosts are erased (rule R170). -/
theorem eraseGhosts_raiseFaults (cs : List FaultCode) (s : State) :
    eraseGhosts (raiseFaults cs s) = eraseGhosts s := by
  rw [raiseFaults_eq]
  rfl

/-- A queue that is not full and whose tail names no slot stops ENQUEUE (log entry 15). -/
theorem enqueue_out_of_range {w : Word} {s : State} (hw : wfWord w = true) (hfull : isFull s = false)
    (hcap : ¬ s.wr < s.cfg.cap) : enqueue w s = .fault (.slotOutOfRange s.wr) := by
  simp [enqueue, (wfWord_eq_true_iff w).1 hw, hfull, hcap]

theorem enqueue_blind (w : Word) : Blind eraseGhosts (enqueue w) := by
  intro s
  cases hw : wfWord w with
  | false =>
    rw [enqueue_reserved _ hw, enqueue_reserved _ hw]
    exact congrArg Host.Outcome.next
      ((eraseGhosts_raiseFaults _ (eraseGhosts s)).trans (eraseGhosts_raiseFaults _ s).symm)
  | true =>
    have hfull' : isFull (eraseGhosts s) = isFull s := rfl
    cases hfull : isFull s with
    | true => rw [enqueue_full hw hfull, enqueue_full hw (hfull'.trans hfull)]; rfl
    | false =>
      by_cases hcap : s.wr < s.cfg.cap
      · rw [enqueue_append hw hfull hcap, enqueue_append hw (hfull'.trans hfull) hcap]; rfl
      · rw [enqueue_out_of_range hw hfull hcap, enqueue_out_of_range hw (hfull'.trans hfull) hcap]; rfl

theorem enqueueAll_blind (ws : List Word) : Blind eraseGhosts (enqueueAll ws) := by
  induction ws with
  | nil => exact blind_next _ fun _ => rfl
  | cons w ws ih => exact (enqueue_blind w).andThen ih

theorem emitTo_blind (cb : Option Nat) (v : Byte) : Blind eraseGhosts (emitTo cb v) := by
  cases cb with
  | none => exact blind_next _ fun _ => rfl
  | some n =>
    exact fun s => (enqueueAll_blind (hostWords s.bindings n v)).comp (u := log (.callback n v)) (fun _ => rfl) s

theorem exec_blind (i : Instr) : Blind eraseGhosts (exec i) := by
  cases i with
  | sampleBit n c =>
    intro s
    exact (emitTo_blind c (zextBit (level s))).comp
      (u := fun s => setShiftRegister (shiftIn (level s) s.sr) (sample s)) (fun _ => rfl) s
  | transferByte n c => exact fun s => emitTo_blind c s.sr s
  | _ => exact fun s => rfl

/-- A count of the timer neither reads nor writes a ghost. -/
theorem countDown_eraseGhosts (s : State) : countDown (eraseGhosts s) = eraseGhosts (countDown s) := by
  unfold countDown
  rw [apply_ite eraseGhosts, apply_ite eraseGhosts]
  rfl

/-- A tick neither reads nor writes a ghost. -/
theorem tick_eraseGhosts (s : State) : tick (eraseGhosts s) = eraseGhosts (tick s) := by
  have hcount := countDown_eraseGhosts { s with now := s.now + 1, lat := s.lat - 1 }
  exact congrArg (fun u => { u with env := Config.envDraw s.draws, draws := s.draws + 1 }) hcount

theorem runHead_blind (w : Word) : Blind eraseGhosts (runHead w) := by
  intro s
  unfold runHead
  cases decode w with
  | action i => exact (exec_blind i).comp (u := beginSlot w) (fun _ => rfl) s
  | reserved cs => rfl

/-- The head word is read from Q alone. -/
theorem withHead_blind {f : Word → State → Result} (hf : ∀ w, Blind eraseGhosts (f w)) :
    Blind eraseGhosts (fun s => withHead s (fun w => f w s)) := by
  intro s
  show mapNext eraseGhosts (withHead s fun w => f w (eraseGhosts s)) = mapNext eraseGhosts (withHead s fun w => f w s)
  unfold withHead
  split
  · split
    · exact hf _ s
    · rfl
  · rfl

theorem expiry_blind : Blind eraseGhosts expiry := by
  intro s
  have hempty : isEmpty (eraseGhosts s) = isEmpty s := rfl
  unfold expiry
  rw [hempty]
  split
  · rfl
  · exact withHead_blind (fun w => (runHead_blind w).comp (u := acknowledge) fun _ => rfl) s

theorem blockStep_blind : Blind eraseGhosts blockStep := by
  intro s
  have hdue' : expiryDue (eraseGhosts s) = expiryDue s := rfl
  unfold blockStep
  rw [hdue']
  split
  · exact expiry_blind s
  · rw [tick_eraseGhosts]
    rfl

theorem deliver_blind (i : Input) : Blind eraseGhosts (deliver i) := by
  cases i with
  | enqueue w => exact enqueue_blind w
  | pass => exact blockStep_blind
  | _ => exact fun s => rfl

theorem step_blind : Blind eraseGhosts step := by
  intro s
  have hinputs : (eraseGhosts s).inputs = s.inputs := rfl
  unfold step
  rw [hinputs]
  split
  · exact blockStep_blind s
  · rename_i i rest _
    exact deliver_blind i { s with inputs := rest }

/-- Settles O43: every part of a step is blind to the fault record and the ghosts. -/
theorem ghostsInfluenceNothing : Obligations.GhostsInfluenceNothing :=
  fun _ _ _ hs h => step_blind.next_of_eq hs h

/-! ### The history accounts for the state (rules R41 to R43, R122, R125, R140, R141) -/

/-- What one event makes of the direction of the line. -/
def Event.lineAfter (d : LineDir) : Event → LineDir
  | .dir d' => d'
  | _ => d

/-- What one event makes of the shift register. -/
def Event.shiftAfter (v : Byte) : Event → Byte
  | .sampled b => shiftIn b v
  | .executed w => if kindField w = 5 then 0#8 else v
  | _ => v

/-- One event names the fault code c. -/
def Event.names (c : FaultCode) : Event → Bool
  | .faulted _ cs => decide (c ∈ cs)
  | _ => false

/-- How many dropped words one event records. -/
def Event.drops : Event → Nat
  | .dropped _ => 1
  | _ => 0

theorem replayLine_concat (es : List (Nat × Event)) (t : Nat) (e : Event) :
    replayLine (es ++ [(t, e)]) = e.lineAfter (replayLine es) := List.foldl_concat ..

theorem replayShift_concat (es : List (Nat × Event)) (t : Nat) (e : Event) :
    replayShift (es ++ [(t, e)]) = e.shiftAfter (replayShift es) := List.foldl_concat ..

theorem faultNamed_concat (c : FaultCode) (es : List (Nat × Event)) (t : Nat) (e : Event) :
    faultNamed c (es ++ [(t, e)]) = (faultNamed c es || e.names c) := by
  rw [faultNamed, List.any_append, List.any_cons, List.any_nil, Bool.or_false]
  rfl

theorem length_droppedWords_concat (es : List (Nat × Event)) (t : Nat) (e : Event) :
    (droppedWords (es ++ [(t, e)])).length = (droppedWords es).length + e.drops := by
  rw [droppedWords, List.filterMap_append, List.length_append]
  cases e <;> rfl

/-- u is s with done to it what the event e tells, and e still to be recorded. An event that tells nothing of a part leaves
it: each clause's default says so. -/
structure Accounts (e : Event) (s u : State) : Prop where
  events : u.events = s.events := by rfl
  now : u.now = s.now := by rfl
  drops : u.drops = s.drops + e.drops := by rfl
  kindBit : u.fault.getLsbD 0 = (s.fault.getLsbD 0 || e.names .rsvdKind) := by exact (Bool.or_false _).symm
  bitsBit : u.fault.getLsbD 1 = (s.fault.getLsbD 1 || e.names .rsvdBits) := by exact (Bool.or_false _).symm
  line : u.lineDir = e.lineAfter s.lineDir := by rfl
  shift : u.sr = e.shiftAfter s.sr := by rfl

/-- To do what an event tells and then to record it keeps the account. -/
theorem History.log {s u : State} {e : Event} (h : History s) (a : Accounts e s u) : History (log e u) where
  drops := by rw [log_drops, log_events, length_droppedWords_concat, a.drops, a.events, h.drops]
  kindBit := by rw [log_fault, log_events, faultNamed_concat, a.kindBit, a.events, h.kindBit]
  bitsBit := by rw [log_fault, log_events, faultNamed_concat, a.bitsBit, a.events, h.bitsBit]
  line := by rw [log_lineDir, log_events, replayLine_concat, a.line, a.events, h.line]
  shift := by rw [log_sr, log_events, replayShift_concat, a.shift, a.events, h.shift]
  times := by
    obtain ⟨hsorted, hpast⟩ := h.times
    rw [log_events, log_now, a.events, a.now]
    refine ⟨List.pairwise_append.2 ⟨hsorted, List.pairwise_singleton .., ?_⟩, ?_⟩
    · simpa using fun t e he => hpast (t, e) he
    · simpa [or_imp, forall_and] using fun t e he => hpast (t, e) he

/-- The account speaks of these fields only, and time may pass. -/
theorem History.of_eq {s t : State} (h : History s) (drops : t.drops = s.drops) (fault : t.fault = s.fault)
    (line : t.lineDir = s.lineDir) (shift : t.sr = s.sr) (events : t.events = s.events) (now : s.now ≤ t.now) :
    History t where
  drops := by rw [drops, events, h.drops]
  kindBit := by rw [fault, events, h.kindBit]
  bitsBit := by rw [fault, events, h.bitsBit]
  line := by rw [line, events, h.line]
  shift := by rw [shift, events, h.shift]
  times := by
    rw [events]
    exact ⟨h.times.1, fun e he => (h.times.2 e he).trans now⟩

/-- The raises of an ill-formed ENQUEUE are what its `Faulted` event names (rules R100, R170). -/
theorem accounts_faulted (w : Word) (cs : List FaultCode) (s : State) :
    Accounts (.faulted w cs) s (raiseFaults cs s) where
  events := by simp
  now := by simp
  drops := by simp [Event.drops]
  kindBit := Bool.eq_iff_iff.2 (by simpa [Event.names] using (raiseFaults_bits cs s).1)
  bitsBit := Bool.eq_iff_iff.2 (by simpa [Event.names] using (raiseFaults_bits cs s).2)
  line := by simp [Event.lineAfter]
  shift := by simp [Event.shiftAfter]

/-- Each outcome of an ENQUEUE is accounted for by the event it records. -/
theorem History.of_enqueue {w : Word} {s t : State} (h : History s) (henq : enqueue w s = .next t) : History t := by
  rcases enqueue_cases henq with ⟨-, rfl⟩ | ⟨-, -, rfl⟩ | ⟨-, -, -, rfl⟩
  · exact h.log (accounts_faulted w _ s)
  · exact h.log {}
  · exact h.log {}

theorem History.of_enqueueAll {ws : List Word} {s t : State} (h : History s) (henq : enqueueAll ws s = .next t) :
    History t := by
  induction ws generalizing s with
  | nil => cases henq; exact h
  | cons w ws ih =>
    obtain ⟨u, hu, ht⟩ := enqueueAll_cons.1 henq
    exact ih (h.of_enqueue hu) ht

theorem History.of_emitTo {cb : Option Nat} {v : Byte} {s t : State} (h : History s) (hemit : emitTo cb v s = .next t) :
    History t := by
  rcases emitTo_cases hemit with ⟨-, rfl⟩ | ⟨n, -, henq⟩
  · exact h
  · exact (h.log (e := .callback n v) {}).of_enqueueAll henq

/-- Every effect but that of ClearShiftRegister keeps the account. -/
theorem History.of_exec {i : Instr} {s t : State} (h : History s) (hi : i.kind ≠ 5) (hexec : exec i s = .next t) :
    History t := by
  cases i with
  | busLow n c => cases hexec; exact h.log {}
  | releaseBus n c => cases hexec; exact h.log {}
  | sampleBit n c =>
    have hsampled : History (setShiftRegister (shiftIn (level s) s.sr) (sample s)) :=
      h.log (e := .sampled (level s)) (u := setShiftRegister (shiftIn (level s) s.sr) s) {}
    exact hsampled.of_emitTo hexec
  | transferByte n c => exact h.of_emitTo hexec
  | waitForBusHigh n c => cases hexec; exact h
  | clearShiftRegister n c => exact absurd rfl hi

theorem eq_clearShiftRegister_of_kind {i : Instr} (h : i.kind = 5) : ∃ n c, i = .clearShiftRegister n c := by
  cases i with
  | clearShiftRegister n c => exact ⟨n, c, rfl⟩
  | _ => simp [Instr.kind] at h

/-- The slot of a head action keeps the account: a ClearShiftRegister by its execution being recorded, every other kind
by what its effect records. -/
theorem History.of_slot {w : Word} {i : Instr} {s t : State} (h : History s) (hw : decode w = .action i)
    (hexec : exec i (beginSlot w (acknowledge s)) = .next t) : History t := by
  have hkind : i.kind = kindField w := ((decode_eq_action_iff w i).1 hw).2.1
  have harmed : History (arm (armedUs s.cfg (holdField w)) (acknowledge s)) := h.log {}
  by_cases hclear : i.kind = 5
  · obtain ⟨n, c, rfl⟩ := eq_clearShiftRegister_of_kind hclear
    cases hexec
    exact harmed.log (u := setShiftRegister 0#8 (advance (arm (armedUs s.cfg (holdField w)) (acknowledge s))))
      { shift := (if_pos (hkind.symm.trans hclear)).symm }
  · have hbegun : History (beginSlot w (acknowledge s)) :=
      harmed.log { shift := (if_neg (hkind ▸ hclear)).symm }
    exact hbegun.of_exec hclear hexec

/-- Settles O50, by the kinds of step. -/
theorem historyAccountsForTheState : Obligations.HistoryAccountsForTheState := by
  intro s t _ hs h
  have hs' : History (afterMove s) := hs.of_eq rfl rfl rfl rfl rfl (Nat.le_refl _)
  rcases step_kinds h with ⟨-, -, -, -, -, -, w, i, -, hi, hslot⟩ | ⟨-, -, -, -, -, rfl⟩ | ⟨-, -, -, -, rfl⟩ |
    ⟨-, -, -, w, henq⟩ | ⟨-, -, -, n, f, rfl⟩ | ⟨-, -, -, b, rfl⟩ | ⟨-, -, -, rfl⟩
  · exact hs'.of_slot hi hslot
  · exact hs'.log {}
  · exact hs'.of_eq (tick_drops _) (tick_fault _) (tick_lineDir _) (tick_sr _) (tick_events _) (by simp)
  · exact hs'.of_enqueue henq
  · exact hs'.of_eq rfl rfl rfl rfl rfl (Nat.le_refl _)
  · exact hs'.of_eq rfl rfl rfl rfl rfl (Nat.le_refl _)
  · exact (History.resetWith s.cfg).of_eq rfl rfl rfl rfl rfl (Nat.le_refl _)

end Sys2Proof.Machine
end

section
/-! The proofs of the memory family (20_memory.md): a waiting move of an agent outside the block is a step of its own. -/

namespace Sys2Proof.Machine

/-- The move that waits first is what a step delivers (rule R71). -/
theorem step_of_inputs_cons {s : State} {i : Input} {rest : List Input} (h : s.inputs = i :: rest) :
    step s = deliver i { s with inputs := rest } := by
  simp only [step, h]

/-- With no EXPIRY due, the block's own step is a tick. -/
theorem blockStep_of_not_due {s : State} (h : expiryDue s = false) : blockStep s = .next (tick s) := by
  simp [blockStep, h]

/-- A waiting binding binds its handle in the store of the bindings and changes nothing else (rule R48). -/
theorem step_bind {s : State} {n : Nat} {f : HostFn} {rest : List Input} (h : s.inputs = .bind n f :: rest) :
    step s = .next { s with inputs := rest, bindings := Memory.write s.bindings n f } :=
  step_of_inputs_cons h

/-- Settles O19: the block's own step with no EXPIRY due, then what the step delivers for each kind of waiting move. -/
theorem stepDeliversWaitingMoves : Obligations.StepDeliversWaitingMoves := by
  refine ⟨fun s hblock hdue => ?tick, fun _ _ _ h => step_of_inputs_cons h, fun _ _ _ h => step_of_inputs_cons h,
    fun s n f rest h => ?bind, fun _ _ h => step_of_inputs_cons h⟩
  case tick => exact (step_block hblock).trans (blockStep_of_not_due hdue)
  case bind =>
    exact ⟨_, step_bind h, rfl, Memory.read_write_same s.bindings n f,
      fun m hm => Memory.read_write_other s.bindings n m f hm⟩

end Sys2Proof.Machine
end

section
/-! The proofs of the encoding family (30_encoding.md), the words: Dec and Enc undo each other, what makes a word
well-formed, what ENQUEUE does with an ill-formed word, and the stops of an EXPIRY that no run reaches. -/

namespace Sys2Proof

/-! ### The fields of an encoded action (rules R81, R95) -/

theorem kindField_encode (i : Instr) : kindField (encode i) = i.kind := by
  have hk : i.kind < 8 := Nat.lt_of_le_of_lt (kind_le_five i) (by decide)
  rw [kindField, encode_eq_packWord, packWord_kind, BitVec.toNat_ofNat, Nat.mod_eq_of_lt hk]

theorem holdField_encode {i : Instr} (h : i.hold ≤ 65535) : holdField (encode i) = i.hold := by
  rw [holdField, encode_eq_packWord, packWord_hold, BitVec.toNat_ofNat, Nat.mod_eq_of_lt (by omega)]

theorem callbackField_encode {i : Instr} (h : ∀ n ∈ i.callback, n ≤ 255) :
    callbackField (encode i) = i.callback := by
  rw [callbackField, cbvField, cbidField, encode_eq_packWord, packWord_cbv, packWord_cbid, BitVec.toNat_ofNat]
  cases hc : i.callback with
  | none => rfl
  | some n => simp [Nat.mod_eq_of_lt (Nat.lt_succ_of_le (h n hc))]

/-- Enc makes well-formed words only: it writes a legal kind, zeros in the reserved bits, and a zero handle where CBV is
clear. -/
theorem wfWord_encode (i : Instr) : wfWord (encode i) = true := by
  refine (wfWord_iff_bits _).2 ⟨(kindField_encode i).trans_le (kind_le_five i), ?rsvd, ?handle⟩
  case rsvd => rw [encode_eq_packWord, packWord_rsvd]
  case handle =>
    rw [encode_eq_packWord, packWord_cbv, packWord_cbid]
    cases i.callback with
    | none => exact .inr rfl
    | some n => exact .inl rfl

theorem handleFits_iff (i : Instr) : i.handleFits = true ↔ ∀ n ∈ i.callback, n ≤ 255 := by
  unfold Instr.handleFits
  cases i.callback <;> simp

/-- An action is well-formed exactly if its operands fit their fields (rules R87, R93). -/
theorem wellFormed_iff (i : Instr) : i.wellFormed = true ↔ i.hold ≤ 65535 ∧ ∀ n ∈ i.callback, n ≤ 255 := by
  rw [Instr.wellFormed, Bool.and_eq_true, handleFits_iff, Instr.holdFits, decide_eq_true_eq]

/-! ### The round trips (rule R95) -/

/-- Dec undoes Enc. -/
theorem decode_encode {i : Instr} (h : i.wellFormed = true) : decode (encode i) = .action i := by
  obtain ⟨hhold, hhandle⟩ := (wellFormed_iff i).1 h
  exact (decode_eq_action_iff _ i).2
    ⟨wfWord_encode i, (kindField_encode i).symm, (holdField_encode hhold).symm, (callbackField_encode hhandle).symm⟩

/-- Dec reads operands that fit their fields. -/
theorem wellFormed_of_decode {w : Word} {i : Instr} (h : decode w = .action i) : i.wellFormed = true := by
  obtain ⟨-, -, hhold, hcb⟩ := (decode_eq_action_iff w i).1 h
  refine (wellFormed_iff i).2 ⟨?_, fun n hn => ?_⟩
  · have := holdField_lt w; omega
  · rw [hcb, callbackField] at hn
    split at hn
    · cases hn
      exact Nat.le_of_lt_succ (cbidField_lt w)
    · cases hn

/-- Without CBV a well-formed word carries no handle, so its callback says all of its CBID and CBV fields. -/
theorem callbackField_parts {w : Word} (h : wfWord w = true) :
    (callbackField w).getD 0 = cbidField w ∧ (callbackField w).isSome = cbvField w := by
  obtain ⟨-, -, hhandle⟩ := (wfWord_iff_bits w).1 h
  unfold callbackField
  cases hv : cbvField w with
  | true => exact ⟨rfl, rfl⟩
  | false =>
    have hzero : w.extractLsb' 8 8 = 0#8 := hhandle.resolve_left (by simpa [cbvField] using hv)
    exact ⟨(congrArg BitVec.toNat hzero).symm, rfl⟩

/-- Enc undoes Dec. -/
theorem encode_of_decode {w : Word} {i : Instr} (h : decode w = .action i) : encode i = w := by
  obtain ⟨hwf, hkind, hhold, hcb⟩ := (decode_eq_action_iff w i).1 h
  obtain ⟨hcbid, hcbv⟩ := callbackField_parts hwf
  have hrsvd : rsvdField w = 0 := congrArg BitVec.toNat ((wfWord_iff_bits w).1 hwf).2.1
  rw [encode_eq_packWord, hkind, hhold, hcb, hcbid, hcbv, packWord_of_fields w hrsvd]

/-- Settles O1: the decoder's answer field by field, the codes of a reserved word, the layout of Enc, and the two round
trips. -/
theorem decodeAndEncodeAgree : Obligations.DecodeAndEncodeAgree := by
  refine ⟨fun w h => ?action, fun w h => ?reserved, fun i => ?layout, fun _ => decode_encode,
    fun _ _ h => ⟨wellFormed_of_decode h, encode_of_decode h⟩⟩
  case action =>
    obtain ⟨i, hi⟩ := decode_of_wf h
    exact ⟨i, hi, ((decode_eq_action_iff w i).1 hi).2⟩
  case reserved =>
    exact ⟨_, decode_of_not_wf h, (wfWord_eq_false_iff w).1 h, mem_rsvdCodes_iff_bits w⟩
  case layout =>
    rw [encode_eq_packWord]
    exact ⟨packWord_hold .., packWord_cbid .., packWord_cbv .., packWord_rsvd .., packWord_kind ..⟩

namespace Machine

/-! ### Well-formedness and ENQUEUE (rules R87 to R89, R100) -/

/-- The bits under the HOLD field are as before when HOLD is replaced. -/
theorem getLsbD_setHold (w : Word) (h : BitVec 16) {i : Nat} (hi : i < 16) :
    (h ++ w.extractLsb' 0 16 : BitVec 32).getLsbD i = w.getLsbD i := by
  refine BitVec.getLsbD_append.trans ?_
  rw [if_pos hi, BitVec.getLsbD_extractLsb', decide_eq_true hi, Bool.true_and, Nat.zero_add]

theorem extractLsb'_setHold (w : Word) (h : BitVec 16) {start len : Nat} (hle : start + len ≤ 16) :
    (h ++ w.extractLsb' 0 16 : BitVec 32).extractLsb' start len = w.extractLsb' start len := by
  apply BitVec.eq_of_getLsbD_eq
  intro j hj
  rw [BitVec.getLsbD_extractLsb', BitVec.getLsbD_extractLsb', getLsbD_setHold w h (by omega)]

/-- HOLD places no condition on well-formedness (rule R87). -/
theorem wfWord_setHold (w : Word) (h : BitVec 16) : wfWord (h ++ w.extractLsb' 0 16 : BitVec 32) = wfWord w := by
  rw [Bool.eq_iff_iff, wfWord_iff_bits, wfWord_iff_bits, getLsbD_setHold w h (by decide),
    extractLsb'_setHold w h (by decide), extractLsb'_setHold w h (by decide), extractLsb'_setHold w h (by decide)]

/-- A word is ill-formed exactly if its kind is reserved, or its reserved bits or a stray handle are not zero (rules R88,
R89). -/
theorem wfWord_eq_false_iff_bits (w : Word) : wfWord w = false ↔
    5 < (w.extractLsb' 0 3).toNat ∨
      (w.extractLsb' 3 4 ≠ 0#4 ∨ (w.getLsbD 7 = false ∧ w.extractLsb' 8 8 ≠ 0#8)) := by
  rw [← Bool.not_eq_true, wfWord_iff_bits, not_and_or, not_and_or, not_or, Nat.not_le, Bool.not_eq_true]

/-- Some FAULT bit is set after the raise of any code (rule R170). -/
theorem raiseFaults_fault_ne_zero {cs : List FaultCode} (h : cs ≠ []) (s : State) :
    (raiseFaults cs s).fault ≠ 0#2 := by
  obtain ⟨hkind, hbits⟩ := raiseFaults_bits cs s
  obtain ⟨c, hc⟩ := List.exists_mem_of_ne_nil cs h
  intro hzero
  rw [hzero] at hkind hbits
  cases c with
  | rsvdKind => exact absurd (hkind.2 (.inr hc)) (by decide)
  | rsvdBits => exact absurd (hbits.2 (.inr hc)) (by decide)

/-- Settles O2: the fields of a word with another HOLD are the same, and an ill-formed word is faulted whether the queue is
full or not. -/
theorem wellFormedWordConditions : Obligations.WellFormedWordConditions := by
  refine ⟨wfWord_iff_bits, wfWord_setHold, fun w s h _ => ⟨_, enqueue_reserved s h, ?drops, ?fault, ?events⟩⟩
  case drops => rw [log_drops, raiseFaults_drops]
  case fault => exact raiseFaults_fault_ne_zero ((wfWord_eq_false_iff w).1 h) s
  case events => rw [log_events, raiseFaults_events, raiseFaults_now]

/-- ENQUEUE of an ill-formed word changes FAULT and the history only. -/
theorem enqueue_reserved_eq {w : Word} (s : State) (h : wfWord w = false) :
    enqueue w s = .next { s with
      fault := (raiseFaults (rsvdCodes w) s).fault
      events := s.events ++ [(s.now, .faulted w (rsvdCodes w))] } := by
  rw [enqueue_reserved s h, raiseFaults_eq]
  rfl

/-- Every live word is well-formed (rules R75, R103). -/
theorem Inv.wfWord_of_mem {s : State} (h : Inv s) {w : Word} (hw : w ∈ liveWords s) : wfWord w = true := by
  obtain ⟨k, hk, hlive⟩ := List.mem_filterMap.1 hw
  obtain ⟨w', hw', hwf⟩ := h.live k (List.mem_range.1 hk)
  cases hlive.symm.trans hw'
  exact hwf

/-- Settles O4: the codes of an ill-formed word name what is wrong with it, its faults are those codes, and the invariant
keeps such words out of the live window. -/
theorem reservedWordsAreFaultedNotAppended : Obligations.ReservedWordsAreFaultedNotAppended := by
  refine ⟨fun w s h => ?faulted, fun s w hs hw => (wfWord_iff_bits w).1 (hs.wfWord_of_mem hw)⟩
  obtain ⟨hkind, hbits⟩ := mem_rsvdCodes_iff_bits w
  obtain ⟨hfault0, hfault1⟩ := raiseFaults_bits (rsvdCodes w) s
  rw [hkind] at hfault0
  rw [hbits] at hfault1
  exact ⟨_, rsvdCodes w, enqueue_reserved_eq s ((wfWord_eq_false_iff_bits w).2 h), hfault0, hfault1, hkind, hbits⟩

/-! ### The stops of an EXPIRY (log entry 15) -/

/-- An EXPIRY that is due on a queue that is not empty hands the head word to the rest of the handler (rule R103). -/
theorem step_of_slot {s : State} (hblock : blockMoves s = true) (hdue : expiryDue s = true) (hcnt : s.cnt ≠ 0) :
    step s = withHead s (fun w => runHead w (acknowledge (afterMove s))) := by
  have hdue' : expiryDue (afterMove s) = true := hdue
  have hempty : isEmpty (afterMove s) = false := decide_eq_false hcnt
  rw [step_block hblock, blockStep, if_pos hdue', expiry, hempty]
  rfl

theorem withHead_of_read {s : State} {w : Word} (hrd : s.rd < s.cfg.cap) (hw : Memory.read s.q s.rd = some w)
    (f : Word → Result) : withHead s f = f w := by
  rw [withHead, if_pos hrd, hw]

theorem withHead_out_of_range {s : State} (hrd : s.cfg.cap ≤ s.rd) (f : Word → Result) :
    withHead s f = .fault (.slotOutOfRange s.rd) :=
  if_neg (Nat.not_lt.2 hrd)

theorem withHead_unwritten {s : State} (hrd : s.rd < s.cfg.cap) (hq : Memory.read s.q s.rd = none)
    (f : Word → Result) : withHead s f = .fault (.unwrittenSlot s.rd) := by
  rw [withHead, if_pos hrd, hq]

theorem runHead_reserved {w : Word} (h : wfWord w = false) (s : State) :
    runHead w s = .refused (.reservedHeadWord w) := by
  rw [runHead, decode_of_not_wf h]

/-- Settles O18: what the read of the head slot and the head word answer in each of the three states, and the ENQUEUE at a
tail index that names no slot. -/
theorem unreachableHeadsStopByName : Obligations.UnreachableHeadsStopByName := by
  refine ⟨fun s w hblock hdue hcnt hrd hw hwf => ?reserved, fun s hblock hdue hcnt hrd => ?range,
    fun s hblock hdue hcnt hrd hq => ?unwritten, fun w s hw hfull hcap => ?enqueue⟩
  case reserved => rw [step_of_slot hblock hdue hcnt, withHead_of_read hrd hw, runHead_reserved hwf]
  case range => rw [step_of_slot hblock hdue hcnt, withHead_out_of_range hrd]
  case unwritten => rw [step_of_slot hblock hdue hcnt, withHead_unwritten hrd hq]
  case enqueue => exact enqueue_out_of_range hw hfull (Nat.not_lt.2 hcap)

end Machine
end Sys2Proof
end

section
/-! The proofs of the encoding family (30_encoding.md), the assembler: which characters a line is made of, what
stripping and reading it answer, and what the lines of rules R92 and R93 assemble to. -/

namespace Sys2Proof.Machine

/-! ### The characters of a line -/

/-- The name of an action line: letters only, and at least one. -/
def IsName (name : List Char) : Prop := name ≠ [] ∧ name.all Char.isAlpha = true

/-- Decimal digits, and at least one. -/
def IsDigits (ds : List Char) : Prop := ds ≠ [] ∧ ds.all Char.isDigit = true

/-- A letter is none of the characters that a line is cut at or told by. -/
theorem isAlpha_ne {c : Char} (h : c.isAlpha = true) : c ≠ ';' ∧ c ≠ ' ' ∧ c ≠ '(' ∧ c ≠ '.' := by
  refine ⟨?_, ?_, ?_, ?_⟩ <;> rintro rfl <;> exact absurd h (by decide)

theorem IsName.isAlpha {name : List Char} (h : IsName name) : ∀ c ∈ name, c.isAlpha = true :=
  List.all_eq_true.1 h.2

theorem IsDigits.isDigit {ds : List Char} (h : IsDigits ds) : ∀ c ∈ ds, c.isDigit = true :=
  List.all_eq_true.1 h.2

theorem IsDigits.ne_semicolon {ds : List Char} (h : IsDigits ds) : ∀ c ∈ ds, c ≠ ';' := by
  rintro c hc rfl
  exact absurd (h.isDigit _ hc) (by decide)

/-- Each of the six mnemonics is a name of letters (rule R92). -/
theorem isName_of_mnemonicKind {name : List Char} {k : Nat} (h : mnemonicKind name = some k) : IsName name := by
  unfold mnemonicKind at h
  split_ifs at h <;> subst name <;> exact ⟨by decide, by decide⟩

/-! ### Stripping a line, and telling an action line -/

theorem dropWhile_space_eq_self {cs : List Char} (h : cs.head? ≠ some ' ') : cs.dropWhile (· = ' ') = cs := by
  cases cs with
  | nil => rfl
  | cons c cs => exact List.dropWhile_cons_of_neg (by simpa using h)

/-- A line without a comment and without spaces at its ends is left as it is. -/
theorem stripLine_eq_self {cs : List Char} (hcomment : ∀ c ∈ cs, c ≠ ';') (hhead : cs.head? ≠ some ' ')
    (hlast : cs.getLast? ≠ some ' ') : stripLine cs = cs := by
  have htake : cs.takeWhile (· ≠ ';') = cs := List.takeWhile_eq_self_iff.2 (by simpa using hcomment)
  have hend : cs.reverse.dropWhile (· = ' ') = cs.reverse :=
    dropWhile_space_eq_self (by rwa [List.head?_reverse])
  rw [stripLine, htake, dropWhile_space_eq_self hhead, hend, List.reverse_reverse]

/-- A line that begins with a name is that name up to its parenthesis, and operands behind it. -/
theorem assembleStripped_action {name : List Char} (hname : IsName name) (operands : List Char) :
    assembleStripped (name ++ '(' :: operands) = assembleOperands name operands := by
  have hparen : ∀ c ∈ name, decide (c ≠ '(') = true := fun c hc =>
    decide_eq_true (isAlpha_ne (hname.isAlpha c hc)).2.2.1
  have htake : (name ++ '(' :: operands).takeWhile (· ≠ '(') = name := by
    rw [List.takeWhile_append_of_pos hparen]
    simp
  have hdrop : (name ++ '(' :: operands).dropWhile (· ≠ '(') = '(' :: operands := by
    rw [List.dropWhile_append_of_pos hparen]
    simp
  obtain ⟨c, cs, rfl⟩ := List.exists_cons_of_ne_nil hname.1
  obtain ⟨-, -, -, hdot⟩ := isAlpha_ne (hname.isAlpha c List.mem_cons_self)
  rw [List.cons_append] at htake hdrop ⊢
  unfold assembleStripped
  split
  case h_1 heq => cases heq
  case h_2 heq => exact absurd (List.cons.inj heq).1 hdot
  case h_3 heq =>
    cases heq
    simp only [htake, hdrop]

/-- A line of a name and of operands in parentheses is read as these two. -/
theorem assembleLine_action {name body : List Char} (hname : IsName name) (hbody : ∀ c ∈ body, c ≠ ';') :
    assembleLine (name ++ '(' :: (body ++ [')'])) = assembleOperands name (body ++ [')']) := by
  have hcomment : ∀ c ∈ name ++ '(' :: (body ++ [')']), c ≠ ';' := by
    have hletter : ∀ c ∈ name, c ≠ ';' := fun c hc => (isAlpha_ne (hname.isAlpha c hc)).1
    simp only [List.forall_mem_append, List.forall_mem_cons]
    exact ⟨hletter, by decide, hbody, by decide, by simp⟩
  have hhead : (name ++ '(' :: (body ++ [')'])).head? ≠ some ' ' := by
    obtain ⟨c, cs, rfl⟩ := List.exists_cons_of_ne_nil hname.1
    simpa using (isAlpha_ne (hname.isAlpha c List.mem_cons_self)).2.1
  have hlast : (name ++ '(' :: (body ++ [')'])).getLast? ≠ some ' ' := by
    rw [← List.cons_append, ← List.append_assoc, List.getLast?_concat]
    decide
  rw [assembleLine, stripLine_eq_self hcomment hhead hlast, assembleStripped_action hname]

/-! ### The operands -/

theorem decimal_of_isDigits {ds : List Char} (h : IsDigits ds) : decimal ds = some (decimalValue ds) :=
  if_pos h

/-- Digits are read up to the first character that is none. -/
theorem span_digits {ds : List Char} (h : IsDigits ds) {c : Char} (hc : c.isDigit = false) (rest : List Char) :
    (ds ++ c :: rest).takeWhile Char.isDigit = ds ∧ (ds ++ c :: rest).dropWhile Char.isDigit = c :: rest := by
  rw [List.takeWhile_append_of_pos h.isDigit, List.dropWhile_append_of_pos h.isDigit]
  simp [hc]

theorem assembleOperands_hold (name : List Char) {dh : List Char} (h : IsDigits dh) :
    assembleOperands name (dh ++ [')']) = assembleAction name (decimalValue dh) none := by
  obtain ⟨htake, hdrop⟩ := span_digits h (c := ')') rfl []
  simp only [assembleOperands, htake, hdrop, decimal_of_isDigits h]

theorem assembleOperands_callback (name : List Char) {dh dn : List Char} (hh : IsDigits dh) (hn : IsDigits dn) :
    assembleOperands name (dh ++ ", cb=".toList ++ dn ++ [')']) =
      assembleAction name (decimalValue dh) (some (decimalValue dn)) := by
  have htext : dh ++ ", cb=".toList ++ dn ++ [')'] =
      dh ++ ',' :: ' ' :: 'c' :: 'b' :: '=' :: (dn ++ [')']) := by simp
  obtain ⟨htake, hdrop⟩ := span_digits hh (c := ',') rfl (' ' :: 'c' :: 'b' :: '=' :: (dn ++ [')']))
  obtain ⟨htake', hdrop'⟩ := span_digits hn (c := ')') rfl []
  simp only [htext, assembleOperands, htake, hdrop, decimal_of_isDigits hh, htake', hdrop', decimal_of_isDigits hn,
    if_true]

/-! ### The action -/

/-- The parts of an action of a listed mnemonic give its encoding, or the refusal of the hold, then of the handle (rule
R93). -/
theorem assembleAction_of_kind {name : List Char} {k hold : Nat} {cb : Option Nat} {i : Instr}
    (hname : mnemonicKind name = some k) (hkind : ofKind k hold cb = some i) :
    assembleAction name hold cb =
      if hold ≤ 65535 then
        (if ∀ n ∈ cb, n ≤ 255 then .word (encode i) else .refused .handleRange)
      else .refused .holdRange := by
  obtain ⟨-, -, hhold, hcb⟩ := (ofKind_eq_some_iff k hold cb i).1 hkind
  have hholdFits : i.holdFits = false ↔ ¬ hold ≤ 65535 := by rw [Instr.holdFits, decide_eq_false_iff_not, hhold]
  have hhandleFits : i.handleFits = false ↔ ¬ ∀ n ∈ cb, n ≤ 255 := by
    rw [← Bool.not_eq_true, handleFits_iff, hcb]
  simp only [assembleAction, hname, hkind, hholdFits, hhandleFits, ite_not]

theorem assembleAction_unknown {name : List Char} (h : mnemonicKind name = none) (hold : Nat) (cb : Option Nat) :
    assembleAction name hold cb = .refused .unknownMnemonic := by
  rw [assembleAction, h]

/-! ### Action lines -/

theorem assembleLine_hold {name dh : List Char} (hname : IsName name) (hh : IsDigits dh) :
    assembleLine (name ++ '(' :: dh ++ [')']) = assembleAction name (decimalValue dh) none := by
  have htext : name ++ '(' :: dh ++ [')'] = name ++ '(' :: (dh ++ [')']) := by simp
  rw [htext, assembleLine_action hname hh.ne_semicolon, assembleOperands_hold name hh]

theorem assembleLine_callback {name dh dn : List Char} (hname : IsName name) (hh : IsDigits dh) (hn : IsDigits dn) :
    assembleLine (name ++ '(' :: dh ++ ", cb=".toList ++ dn ++ [')']) =
      assembleAction name (decimalValue dh) (some (decimalValue dn)) := by
  have htext : name ++ '(' :: dh ++ ", cb=".toList ++ dn ++ [')'] =
      name ++ '(' :: (dh ++ ", cb=".toList ++ dn ++ [')']) := by simp
  have hbody : ∀ c ∈ dh ++ ", cb=".toList ++ dn, c ≠ ';' := by
    simp only [List.forall_mem_append]
    exact ⟨⟨hh.ne_semicolon, by simp⟩, hn.ne_semicolon⟩
  rw [htext, assembleLine_action hname hbody, assembleOperands_callback name hh hn]

/-! ### Raw words -/

theorem digitChar_toNat {n : Nat} (h : n < 16) : (Nat.digitChar n).toNat = if n < 10 then 48 + n else 87 + n := by
  interval_cases n <;> rfl

theorem toLower_toNat (c : Char) :
    c.toLower.toNat = if 65 ≤ c.toNat ∧ c.toNat ≤ 90 then c.toNat + 32 else c.toNat := by
  by_cases h : c.val ≥ 'A'.val ∧ c.val ≤ 'Z'.val
  · have hupper : 65 ≤ c.toNat ∧ c.toNat ≤ 90 := h
    have hsum : (c.val + 32).toNat = (c.toNat + 32) % 2 ^ 32 := UInt32.toNat_add c.val 32
    rw [if_pos hupper, Char.toLower, dif_pos h]
    exact hsum.trans (Nat.mod_eq_of_lt (by omega))
  · have hupper : ¬ (65 ≤ c.toNat ∧ c.toNat ≤ 90) := h
    rw [if_neg hupper, Char.toLower, dif_neg h]

/-- A hexadecimal digit of either case has the value of its lower-case form (rule R93; log entry 12). -/
theorem hexDigit_of_toLower {c : Char} {n : Nat} (hn : n < 16) (h : c.toLower = Nat.digitChar n) :
    hexDigit c = some n := by
  have hval : c.toLower.toNat = (Nat.digitChar n).toNat := congrArg Char.toNat h
  have hdigit : c.isDigit = true ↔ 48 ≤ c.toNat ∧ c.toNat ≤ 57 := Char.isDigit_iff_toNat
  have hforms : (n < 10 ∧ c.toNat = 48 + n) ∨ (10 ≤ n ∧ c.toNat = 87 + n) ∨ (10 ≤ n ∧ c.toNat = 55 + n) := by
    rw [toLower_toNat, digitChar_toNat hn] at hval
    split_ifs at hval <;> omega
  simp only [hexDigit, hdigit]
  rcases hforms with ⟨hlt, hc⟩ | ⟨hge, hc⟩ | ⟨hge, hc⟩
  · rw [if_pos (by omega), hc, Nat.add_sub_cancel_left]
  · rw [if_neg (by omega), if_pos (by omega), hc, Nat.add_sub_cancel_left]
  · rw [if_neg (by omega), if_neg (by omega), if_pos (by omega), hc, Nat.add_sub_cancel_left]

/-- The value of hexadecimal digits of either case, read on from n. -/
theorem hexValue_of_toLower {cs : List Char} {ds : List Nat} (hds : ∀ d ∈ ds, d < 16)
    (h : cs.map Char.toLower = ds.map Nat.digitChar) (n : Nat) :
    hexValue cs n = some (ds.foldl (fun m d => 16 * m + d) n) := by
  induction ds generalizing cs n with
  | nil =>
    rw [List.map_eq_nil_iff.1 h]
    rfl
  | cons d ds ih =>
    obtain ⟨hd, hds⟩ := List.forall_mem_cons.1 hds
    obtain ⟨c, cs, rfl, hc, hcs⟩ := List.map_eq_cons_iff.1 h
    rw [hexValue, hexDigit_of_toLower hd hc]
    exact ih hds hcs (16 * n + d)

/-- The values of the eight hexadecimal digits of a 32-bit number, the most significant first. -/
def hexDigits (v : Nat) : List Nat := (List.range 8).map (fun i => v / 16 ^ (7 - i) % 16)

theorem hexText_eq_map_hexDigits (w : Word) : hexText w = (hexDigits w.toNat).map Nat.digitChar := by
  rw [hexText, hexDigits, List.map_map]
  rfl

theorem hexDigits_lt (v : Nat) : ∀ d ∈ hexDigits v, d < 16 := by
  simp [hexDigits, Nat.mod_lt]

/-- The digits of a number make the number. -/
theorem foldl_hexDigits {v : Nat} (h : v < 2 ^ 32) : (hexDigits v).foldl (fun m d => 16 * m + d) 0 = v := by
  simp only [hexDigits, List.range, List.range.loop, List.map, List.foldl]
  omega

/-- The text of a word, in either case, is read as the word. -/
theorem assembleRaw_of_toLower {w : Word} {digits : List Char} (h : digits.map Char.toLower = hexText w) :
    assembleRaw digits = .word w := by
  have hlength : digits.length = 8 := by simpa [hexText] using congrArg List.length h
  have hvalue : hexValue digits 0 = some w.toNat := by
    rw [hexValue_of_toLower (hexDigits_lt _) (h.trans (hexText_eq_map_hexDigits w)), foldl_hexDigits w.isLt]
  simp only [assembleRaw, hlength, if_true, hvalue, BitVec.ofNat_toNat, BitVec.setWidth_eq]

theorem hexText_ne (w : Word) : ∀ c ∈ hexText w, c ≠ ';' ∧ c ≠ ' ' := by
  rw [hexText_eq_map_hexDigits]
  intro c hc
  obtain ⟨d, hd, rfl⟩ := List.mem_map.1 hc
  have hchars : ∀ d < 16, Nat.digitChar d ≠ ';' ∧ Nat.digitChar d ≠ ' ' := by decide
  exact hchars d (hexDigits_lt _ d hd)

/-- `.word 0x` and the eight digits of a word are that word (rule R93). -/
theorem assembleLine_raw {w : Word} {digits : List Char} (h : digits.map Char.toLower = hexText w) :
    assembleLine (".word 0x".toList ++ digits) = .word w := by
  have hdigit : ∀ c ∈ digits, c ≠ ';' ∧ c ≠ ' ' := by
    intro c hc
    obtain ⟨h1, h2⟩ := hexText_ne w c.toLower (h ▸ List.mem_map_of_mem hc)
    exact ⟨by rintro rfl; exact h1 rfl, by rintro rfl; exact h2 rfl⟩
  have hcomment : ∀ c ∈ ".word 0x".toList ++ digits, c ≠ ';' :=
    List.forall_mem_append.2 ⟨by simp, fun c hc => (hdigit c hc).1⟩
  have hlast : (".word 0x".toList ++ digits).getLast? ≠ some ' ' := by
    rw [List.getLast?_append]
    cases hlast : digits.getLast? with
    | none => simp
    | some c => simpa using (hdigit c (List.mem_of_getLast? hlast)).2
  rw [assembleLine, stripLine_eq_self hcomment (by simp) hlast]
  exact assembleRaw_of_toLower h

/-! ### Programs -/

/-- Lines that are words give these words in order (rule R92). -/
theorem assemble_words {lines : List (List Char)} {ws : List Word} (h : lines.map assembleLine = ws.map .word) :
    assemble lines = .ok ws := by
  induction lines generalizing ws with
  | nil =>
    rw [List.map_eq_nil_iff.1 h.symm]
    rfl
  | cons l ls ih =>
    obtain ⟨w, ws, rfl, hw, hws⟩ := List.map_eq_cons_iff.1 h.symm
    rw [assemble, ← hw, ih hws.symm]

/-- Settles O58: a line of a name and digits is read as these parts, a raw line as its digits, and a program line by
line. -/
theorem actionLinesAssembleToTheirEncoding : Obligations.ActionLinesAssembleToTheirEncoding := by
  refine ⟨fun name dh dn hne hdh hne' hdn => ?actions, fun _ => rfl, fun _ _ => assembleLine_raw,
    fun _ _ => assemble_words⟩
  have hh : IsDigits dh := ⟨hne, hdh⟩
  have hn : IsDigits dn := ⟨hne', hdn⟩
  refine ⟨fun k i hk hi => ?hold, fun k i hk hi => ?callback, fun hnone hne halpha => ?unknown⟩
  case hold =>
    rw [assembleLine_hold (isName_of_mnemonicKind hk) hh, assembleAction_of_kind hk hi]
    simp
  case callback =>
    rw [assembleLine_callback (isName_of_mnemonicKind hk) hh hn, assembleAction_of_kind hk hi]
    simp
  case unknown =>
    have hname : IsName name := ⟨hne, halpha⟩
    rw [assembleLine_hold hname hh, assembleLine_callback hname hh hn]
    exact ⟨assembleAction_unknown hnone .., assembleAction_unknown hnone ..⟩

end Sys2Proof.Machine
end

section
/-! The proofs of the scheduler family (40_scheduler.md): that the machine never stops, what ENQUEUE accepts, how words
go through the queue, and what an EXPIRY arms and executes. -/

namespace Sys2Proof.Machine

/-! ### The machine never stops (rules R113, R173, R186) -/

/-- From a state that meets the invariant EXPIRY answers: a live head word is well-formed, so it decodes. -/
theorem expiry_next {s : State} (h : Inv s) : ∃ t, expiry s = .next t := by
  by_cases hcnt : s.cnt = 0
  · exact ⟨_, expiry_empty hcnt⟩
  · obtain ⟨hrd, w, hw, hwf⟩ := head_live h hcnt
    obtain ⟨i, hi⟩ := decode_of_wf hwf
    obtain ⟨t, ht, -⟩ := exec_next (h.beginSlot hcnt w) i
    exact ⟨t, (expiry_head hcnt hrd hw hi).trans ht⟩

theorem blockStep_next {s : State} (h : Inv s) : ∃ t, blockStep s = .next t := by
  unfold blockStep
  split
  · exact expiry_next h
  · exact ⟨_, rfl⟩

theorem deliver_next {s : State} (h : Inv s) (i : Input) : ∃ t, deliver i s = .next t := by
  cases i with
  | enqueue w =>
    obtain ⟨t, ht, -⟩ := enqueue_next h w
    exact ⟨t, ht⟩
  | pass => exact blockStep_next h
  | bind n f => exact ⟨_, rfl⟩
  | env b => exact ⟨_, rfl⟩
  | reset => exact ⟨_, rfl⟩

theorem step_next {s : State} (h : Inv s) : ∃ t, step s = .next t := by
  cases hi : s.inputs with
  | nil =>
    obtain ⟨t, ht⟩ := blockStep_next h.afterMove
    exact ⟨t, (step_block (by simp [blockMoves, hi])).trans ht⟩
  | cons i rest =>
    have hrest : Inv { s with inputs := rest } := h.of_eq rfl rfl rfl rfl rfl rfl rfl rfl rfl
    rw [step_of_inputs_cons hi]
    exact deliver_next hrest i

/-- Settles O49, by induction on the number of steps: each one answers and keeps the invariant. -/
theorem machineNeverStops : Obligations.MachineNeverStops := by
  intro s k hs
  induction k generalizing s with
  | zero => exact ⟨s, rfl, hs⟩
  | succ k ih =>
    obtain ⟨u, hu⟩ := step_next hs
    obtain ⟨t, ht, hinv⟩ := ih u (stepKeepsTheInvariant s u hs hu)
    exact ⟨t, (runSteps_succ k hu).trans ht, hinv⟩

/-! ### The words a part of a step accepts (rules R100, R101, R110) -/

/-- From s to t the words `new` were accepted: they stand behind the live words and behind the accepted ones, and no
word was executed. -/
structure Accepts (new : List Word) (s t : State) : Prop where
  live : liveWords t = liveWords s ++ new
  accepted : acceptedWords t.events = acceptedWords s.events ++ new
  executed : executedWords t.events = executedWords s.events

/-- Events that accept and execute no word, and changes outside the queue, accept nothing. -/
theorem Accepts.nil {s t : State} (live : liveWords t = liveWords s) (es : List (Nat × Event))
    (events : t.events = s.events ++ es) (accepted : acceptedWords es = [] := by rfl)
    (executed : executedWords es = [] := by rfl) : Accepts [] s t where
  live := by rw [live, List.append_nil]
  accepted := by rw [events, acceptedWords_append, accepted]
  executed := by rw [events, executedWords_append, executed, List.append_nil]

theorem Accepts.trans {a b : List Word} {s t u : State} (h : Accepts a s t) (h' : Accepts b t u) :
    Accepts (a ++ b) s u where
  live := by rw [h'.live, h.live, List.append_assoc]
  accepted := by rw [h'.accepted, h.accepted, List.append_assoc]
  executed := h'.executed.trans h.executed

/-- What accepts nothing may come first. -/
theorem Accepts.nil_trans {b : List Word} {s t u : State} (h : Accepts [] s t) (h' : Accepts b t u) :
    Accepts b s u := h.trans h'

/-- The live words are read from these fields only. -/
theorem liveWords_of_eq {s t : State} (cfg : t.cfg = s.cfg) (q : t.q = s.q) (rd : t.rd = s.rd) (cnt : t.cnt = s.cnt) :
    liveWords t = liveWords s :=
  liveWords_congr cnt fun k _ => by rw [liveWord, liveWord, slotAt, slotAt, cfg, q, rd]

/-- An ENQUEUE accepts its word or none. -/
theorem enqueue_accepts {w : Word} {s t : State} (hs : Inv s) (h : enqueue w s = .next t) :
    ∃ new, Accepts new s t := by
  rcases enqueue_cases h with ⟨-, rfl⟩ | ⟨-, -, rfl⟩ | ⟨-, hfull, -, rfl⟩
  · exact ⟨[], .nil (liveWords_of_eq (by simp) (by simp) (by simp) (by simp)) [(s.now, .faulted w (rsvdCodes w))]
      (by simp)⟩
  · exact ⟨[], .nil (liveWords_of_eq rfl rfl rfl rfl) [(s.now, .dropped w)] rfl⟩
  · exact ⟨[w], {
      live := liveWords_append hs hfull
      accepted := acceptedWords_append s.events [(s.now, .enqueued w)]
      executed := by rw [append_events, executedWords_append]; exact List.append_nil _ }⟩

theorem enqueueAll_accepts {ws : List Word} {s t : State} (hs : Inv s) (h : enqueueAll ws s = .next t) :
    ∃ new, Accepts new s t := by
  induction ws generalizing s with
  | nil => cases h; exact ⟨[], .nil rfl [] (by simp)⟩
  | cons w ws ih =>
    obtain ⟨u, hu, ht⟩ := enqueueAll_cons.1 h
    obtain ⟨a, ha⟩ := enqueue_accepts hs hu
    obtain ⟨b, hb⟩ := ih (.of_next (enqueue_next hs w) hu) ht
    exact ⟨a ++ b, ha.trans hb⟩

theorem emitTo_accepts {cb : Option Nat} {v : Byte} {s t : State} (hs : Inv s) (h : emitTo cb v s = .next t) :
    ∃ new, Accepts new s t := by
  rcases emitTo_cases h with ⟨-, rfl⟩ | ⟨n, -, henq⟩
  · exact ⟨[], .nil rfl [] (by simp)⟩
  · have hlog : Accepts [] s (log (.callback n v) s) :=
      .nil (liveWords_of_eq rfl rfl rfl rfl) [(s.now, .callback n v)] rfl
    have hs' : Inv (log (.callback n v) s) := hs.of_eq rfl rfl rfl rfl rfl rfl rfl rfl rfl
    obtain ⟨new, hnew⟩ := enqueueAll_accepts hs' henq
    exact ⟨new, hlog.nil_trans hnew⟩

/-- An effect executes no word, and accepts only what a callback's function ENQUEUEs. -/
theorem exec_accepts {i : Instr} {s t : State} (hs : Inv s) (h : exec i s = .next t) : ∃ new, Accepts new s t := by
  cases i with
  | busLow n c => cases h; exact ⟨[], .nil (liveWords_of_eq rfl rfl rfl rfl) [(s.now, .dir .outputLow)] rfl⟩
  | releaseBus n c => cases h; exact ⟨[], .nil (liveWords_of_eq rfl rfl rfl rfl) [(s.now, .dir .input)] rfl⟩
  | sampleBit n c =>
    have hsample : Accepts [] s (setShiftRegister (shiftIn (level s) s.sr) (sample s)) :=
      .nil (liveWords_of_eq rfl rfl rfl rfl) [(s.now, .sampled (level s))] rfl
    have hs' : Inv (setShiftRegister (shiftIn (level s) s.sr) (sample s)) :=
      hs.of_eq rfl rfl rfl rfl rfl rfl rfl rfl rfl
    obtain ⟨new, hnew⟩ := emitTo_accepts hs' h
    exact ⟨new, hsample.nil_trans hnew⟩
  | transferByte n c => exact emitTo_accepts hs h
  | waitForBusHigh n c => cases h; exact ⟨[], .nil rfl [] (by simp)⟩
  | clearShiftRegister n c => cases h; exact ⟨[], .nil (liveWords_of_eq rfl rfl rfl rfl) [] (by simp)⟩

/-! ### The words of a step (rules R101, R110) -/

/-- The beginning of a slot takes the head word off the live ones and records its execution. -/
theorem beginSlot_words {s : State} (hs : Inv s) (hcnt : s.cnt ≠ 0) {w : Word} (hw : Memory.read s.q s.rd = some w) :
    liveWords s = w :: liveWords (beginSlot w (acknowledge s)) ∧
      acceptedWords (beginSlot w (acknowledge s)).events = acceptedWords s.events ∧
      executedWords (beginSlot w (acknowledge s)).events = executedWords s.events ++ [w] := by
  refine ⟨?live, ?accepted, ?executed⟩
  case live =>
    rw [liveWords_advance hs hcnt hw]
    exact congrArg (w :: ·) (liveWords_of_eq rfl rfl rfl rfl)
  case accepted =>
    rw [beginSlot_events, acceptedWords_append]
    exact List.append_nil _
  case executed =>
    rw [beginSlot_events, executedWords_append]
    rfl

/-- A step that begins a slot executes the head word and takes it off the live ones; its effect may accept words. -/
theorem step_words_of_slot {s t : State} (hs : Inv s) (h : step s = .next t) (hslot : slotBegins s = true) :
    ∃ w rest new, Memory.read s.q s.rd = some w ∧ liveWords s = w :: rest ∧ liveWords t = rest ++ new ∧
      acceptedWords t.events = acceptedWords s.events ++ new ∧
      executedWords t.events = executedWords s.events ++ [w] := by
  obtain ⟨-, -, hcnt⟩ := (slotBegins_eq_true_iff s).1 hslot
  obtain ⟨w, i, hw, -, hexec⟩ := step_slot h hslot
  obtain ⟨hlive, haccepted, hexecuted⟩ := beginSlot_words hs.afterMove hcnt hw
  obtain ⟨new, hnew⟩ := exec_accepts (hs.afterMove.beginSlot hcnt w) hexec
  exact ⟨w, _, new, hw, hlive, hnew.live, haccepted ▸ hnew.accepted, hnew.executed.trans hexecuted⟩

/-- A step that is no reset and begins no slot accepts an ENQUEUE's word at most. -/
theorem step_accepts_of_no_slot {s t : State} (hs : Inv s) (h : step s = .next t) (hreset : resetMoves s = false)
    (hslot : slotBegins s = false) : ∃ new, Accepts new s t := by
  rcases step_kinds h with ⟨-, hslot', -⟩ | ⟨-, -, -, -, -, rfl⟩ | ⟨-, -, -, -, rfl⟩ |
    ⟨-, -, -, w, henq⟩ | ⟨-, -, -, n, f, rfl⟩ | ⟨-, -, -, b, rfl⟩ | ⟨hreset', -⟩
  · rw [hslot] at hslot'
    cases hslot'
  · exact ⟨[], .nil (liveWords_of_eq rfl rfl rfl rfl) [(s.now, .armed s.cfg.idlePollUs)] rfl⟩
  · exact ⟨[], .nil (liveWords_tick _) [] (by simp)⟩
  · have hmove : Accepts [] s (afterMove s) := .nil (liveWords_of_eq rfl rfl rfl rfl) [] (by simp)
    obtain ⟨new, hnew⟩ := enqueue_accepts hs.afterMove henq
    exact ⟨new, hmove.nil_trans hnew⟩
  · exact ⟨[], .nil (liveWords_of_eq rfl rfl rfl rfl) [] (by simp)⟩
  · exact ⟨[], .nil (liveWords_of_eq rfl rfl rfl rfl) [] (by simp)⟩
  · rw [hreset] at hreset'
    cases hreset'

/-- Settles O11: a slot takes the head off, every other step that is no reset only adds words. -/
theorem entriesLeaveOnlyByExecutionOrReset : Obligations.EntriesLeaveOnlyByExecutionOrReset := by
  intro s t hs h
  refine ⟨fun hreset => ?step, fun hreset => ?reset⟩
  case reset => rw [step_eq_resetBlock h hreset]; rfl
  case step =>
    cases hslot : slotBegins s with
    | true =>
      obtain ⟨w, rest, new, -, hs', ht, haccepted, -⟩ := step_words_of_slot hs h hslot
      exact ⟨new, by rw [ht, hs']; rfl, haccepted⟩
    | false =>
      obtain ⟨new, hnew⟩ := step_accepts_of_no_slot hs h hreset hslot
      exact ⟨new, hnew.live, hnew.accepted⟩

/-- A slot moves its word from the head of the live ones to the end of the executed ones, every other step but a reset
leaves the executed ones: the order of the accepted words is kept (rule R101). -/
theorem InOrder.step {s t : State} (hs : Inv s) (ho : InOrder s) (h : step s = .next t) : InOrder t := by
  unfold InOrder at ho ⊢
  cases hreset : resetMoves s with
  | true => rw [step_eq_resetBlock h hreset]; rfl
  | false =>
    cases hslot : slotBegins s with
    | true =>
      obtain ⟨w, rest, new, -, hs', ht, haccepted, hexecuted⟩ := step_words_of_slot hs h hslot
      rw [haccepted, hexecuted, ho, hs', ht]
      simp
    | false =>
      obtain ⟨new, hnew⟩ := step_accepts_of_no_slot hs h hreset hslot
      rw [hnew.accepted, hnew.executed, ho, hnew.live, List.append_assoc]

/-- Settles O10: the order is kept, a slot executes the head word, and every other step but a reset none. -/
theorem acceptedEntriesExecuteInOrder : Obligations.AcceptedEntriesExecuteInOrder := by
  intro s t hs ho h
  refine ⟨ho.step hs h, fun hslot => ?slot, fun hslot hreset => ?other⟩
  case slot =>
    obtain ⟨w, -, -, hw, -, -, -, hexecuted⟩ := step_words_of_slot hs h hslot
    exact ⟨w, hw, hexecuted⟩
  case other =>
    obtain ⟨new, hnew⟩ := step_accepts_of_no_slot hs h hreset hslot
    exact hnew.executed

/-! ### ENQUEUE (rules R100, R102, R174) -/

/-- FULL, spelled out for each discipline (rule R33). -/
theorem isFull_iff (s : State) : isFull s = true ↔
    (s.cfg.qdisc = .linear ∧ s.wr = s.cfg.cap) ∨ (s.cfg.qdisc = .ring ∧ s.cnt = s.cfg.cap) := by
  unfold isFull
  cases s.cfg.qdisc <;> simp

/-- Settles O6: FULL of either discipline leads to the drop. -/
theorem fullQueueDropsSilently : Obligations.FullQueueDropsSilently :=
  fun _ s hw hfull => enqueue_full hw ((isFull_iff s).2 hfull)

/-- Settles O7: the state after the append, and the two read laws of the store. -/
theorem enqueueAppendsAtTheTail : Obligations.EnqueueAppendsAtTheTail := by
  intro w s hw hfull hcap
  exact ⟨append w s, enqueue_append hw hfull hcap, rfl, Memory.read_write_same s.q s.wr w,
    fun k hk => Memory.read_write_other s.q s.wr k w hk⟩

/-- Settles O8: the frame of several ENQUEUEs, and the slots they write. -/
theorem enqueuesLeaveTimerLineAndShiftAlone : Obligations.EnqueuesLeaveTimerLineAndShiftAlone := by
  intro ws s t h
  have f := enqueueAll_frame h
  obtain ⟨hcnt, hslots⟩ := enqueueAll_slots h
  exact ⟨f.tmrCount, f.tmrArmed, f.tmrPend, f.lat, f.now, f.sr, f.lineDir, f.rd, f.cfg, f.env, f.bindings, hcnt,
    hslots⟩

/-- How many words the queue still has room for: slots not yet spent under LINEAR, slots not occupied under RING (rules
R11, R33). -/
def room (s : State) : Nat :=
  match s.cfg.qdisc with
  | .linear => s.cfg.cap - s.wr
  | .ring => s.cfg.cap - s.cnt

theorem room_eq_zero_iff {s : State} (hs : Inv s) : room s = 0 ↔ isFull s = true := by
  have hi := hs.indices
  unfold indicesOk at hi
  unfold room isFull
  cases hq : s.cfg.qdisc <;> simp only [hq, decide_eq_true_eq] at hi ⊢ <;> omega

theorem room_append (w : Word) (s : State) : room (append w s) = room s - 1 := by
  unfold room
  cases hq : s.cfg.qdisc <;> simp only [append_cfg, append_wr, append_cnt, nextSlot, hq] <;> omega

/-- A drop leaves the live words and the room, and is counted in DROPS only (rules R102, R174). -/
theorem enqueue_drops {w : Word} {s : State} (hw : wfWord w = true) (hfull : isFull s = true) :
    ∃ u, enqueue w s = .next u ∧ liveWords u = liveWords s ∧ room u = room s ∧ u.drops = s.drops + 1 ∧
      u.fault = s.fault :=
  ⟨_, enqueue_full hw hfull, liveWords_of_eq rfl rfl rfl rfl, rfl, rfl, rfl⟩

/-- Of well-formed words ENQUEUEd in turn the first ones are accepted, as many as there is room for, and the others are
counted as drops (rules R100, R102). -/
theorem enqueueAll_room {ws : List Word} {s : State} (hs : Inv s) (hws : ∀ w ∈ ws, wfWord w = true) :
    ∃ t, enqueueAll ws s = .next t ∧ liveWords t = liveWords s ++ ws.take (room s) ∧
      t.drops = s.drops + (ws.length - room s) ∧ t.fault = s.fault := by
  induction ws generalizing s with
  | nil => exact ⟨s, rfl, by simp, by simp, rfl⟩
  | cons w ws ih =>
    obtain ⟨hw, hws⟩ := List.forall_mem_cons.1 hws
    have hroom := room_eq_zero_iff hs
    cases hfull : isFull s with
    | true =>
      have hzero : room s = 0 := hroom.2 hfull
      obtain ⟨u, hu, hlive', hroom', hdrops', hfault'⟩ := enqueue_drops hw hfull
      obtain ⟨t, ht, hlive, hdrops, hfault⟩ := ih (.of_next (enqueue_next hs w) hu) hws
      rw [hroom', hzero] at hlive hdrops
      refine ⟨t, enqueueAll_cons.2 ⟨u, hu, ht⟩, ?_, ?_, hfault.trans hfault'⟩
      · rw [hlive, hlive', hzero, List.take_zero, List.take_zero]
      · rw [hdrops, hdrops', hzero, List.length_cons]; omega
    | false =>
      have hpos : room s ≠ 0 := by simp [hroom, hfull]
      obtain ⟨t, ht, hlive, hdrops, hfault⟩ := ih (hs.append hw hfull) hws
      obtain ⟨n, hn⟩ := Nat.exists_eq_succ_of_ne_zero hpos
      rw [room_append, hn, Nat.succ_sub_one] at hlive hdrops
      refine ⟨t, enqueueAll_cons.2 ⟨_, enqueue_append hw hfull (wr_lt_cap hs hfull), ht⟩, ?_, ?_, hfault⟩
      · rw [hlive, liveWords_append hs hfull, hn, List.take_succ_cons, List.append_assoc, List.singleton_append]
      · rw [hdrops, hn, List.length_cons, append_drops]; omega

theorem room_resetWith (c : Config) : room (State.resetWith c) = c.cap := by
  unfold room
  cases hq : (State.resetWith c).cfg.qdisc <;> rfl

/-- Settles O9: after reset there is room for CAP words. -/
theorem capacityBoundsAcceptance : Obligations.CapacityBoundsAcceptance := by
  intro c ws hws
  obtain ⟨t, ht, hlive, hdrops, hfault⟩ := enqueueAll_room (Inv.resetWith c) hws
  have hinv : Inv t := .of_next (enqueueAll_next (Inv.resetWith c) ws) ht
  have hlive : liveWords t = ws.take c.cap := by rw [hlive, room_resetWith]; rfl
  refine ⟨t, ht, ?cnt, ?drops, hfault, hlive⟩
  case cnt => rw [← liveWords_length hinv, hlive, List.length_take, Nat.min_comm]
  case drops => rw [hdrops, room_resetWith]; exact Nat.zero_add _

/-! ### The advance (rule R106) -/

/-- Under LINEAR the removed entry is the last live one exactly if RD reaches WR (rule R32). -/
theorem tailAfterAdvance_linear {s : State} (h : Inv s) (hq : s.cfg.qdisc = .linear) :
    tailAfterAdvance s = if s.cnt = 1 then 0 else s.wr := by
  have hi := h.indices
  simp only [indicesOk, hq] at hi
  have hlast : s.rd + 1 = s.wr ↔ s.cnt = 1 := by omega
  simp [tailAfterAdvance, hq, hlast]

/-- Under RING an advance leaves a slot free. -/
theorem isFull_advance_ring {s : State} (h : Inv s) (hq : s.cfg.qdisc = .ring) :
    isFull (advance s) = false := by
  have hi := h.indices
  simp only [indicesOk, hq] at hi
  simp only [isFull, advance_cfg, hq, advance_cnt]
  exact decide_eq_false (by omega)

/-- Settles O15, for each discipline. -/
theorem advanceRemovesTheHead : Obligations.AdvanceRemovesTheHead := by
  intro s w hs hcnt hw
  refine ⟨rfl, liveWords_advance hs hcnt hw, fun hq hc => ?emptied, fun hq hc => ?linear, fun hq => ?ring⟩
  case emptied =>
    rw [advance_rd, advance_wr, headAfterAdvance_linear hs hq, tailAfterAdvance_linear hs hq, if_pos hc, if_pos hc]
    exact ⟨rfl, rfl⟩
  case linear =>
    have hwr : (advance s).wr = s.wr := by rw [advance_wr, tailAfterAdvance_linear hs hq, if_neg hc]
    have hrd : (advance s).rd = s.rd + 1 := by rw [advance_rd, headAfterAdvance_linear hs hq, if_neg hc]
    exact ⟨hrd, hwr, by simp only [isFull, advance_cfg, hq, hwr]⟩
  case ring =>
    refine ⟨?_, ?_, isFull_advance_ring hs hq⟩
    · simp only [advance_rd, headAfterAdvance, hq]
    · simp only [advance_wr, tailAfterAdvance, hq]

/-! ### What an EXPIRY arms, and the ticks to the next one (rules R103 to R105, R112) -/

/-- An EXPIRY due on an empty queue is the idle poll (rule R104). -/
theorem step_idle {s : State} (hblock : blockMoves s = true) (hdue : expiryDue s = true) (hcnt : s.cnt = 0) :
    step s = .next (arm s.cfg.idlePollUs (acknowledge (afterMove s))) := by
  have hdue' : expiryDue (afterMove s) = true := hdue
  have hcnt' : (afterMove s).cnt = 0 := hcnt
  rw [step_block hblock, blockStep, if_pos hdue', expiry_empty hcnt']
  rfl

/-- With no move waiting, an armed timer with nothing pending expires at the end of its count and the EXPIRY is due when
the latency drawn then has passed; the count of live entries stays (rules R179, R182). -/
theorem run_expire_then_due {s : State} (hi : s.inputs = []) (ha : s.tmrArmed = true) (hp : s.tmrPend = false)
    (hc : s.tmrCount ≠ 0#32) : ∃ t u, runSteps s.tmrCount.toNat s = .next t ∧ t.tmrPend = true ∧
      t.now = s.now + s.tmrCount.toNat ∧ t.cnt = s.cnt ∧
      runSteps t.lat t = .next u ∧ expiryDue u = true ∧ u.now = t.now + t.lat ∧ u.cnt = s.cnt := by
  obtain ⟨t, hrun, hnow, -, harmed, hpend, -, hcnt, -, -, hinputs, -⟩ := run_count hi ha hp _ (Nat.le_refl _) hc
  have hstopped : t.tmrArmed = false := by simp [← Bool.not_eq_true, harmed]
  obtain ⟨u, hrun', hnow', hlat, hpend', -, -, hcnt', -⟩ :=
    run_wait hinputs hstopped (hpend.2 rfl) t.lat (Nat.le_refl _)
  exact ⟨t, u, hrun, hpend.2 rfl, hnow, hcnt, hrun', by simp [expiryDue, hpend', hlat], hnow', hcnt'.trans hcnt⟩

/-- Settles O13: the idle poll arms the timer, which runs to the next EXPIRY. -/
theorem emptyExpiryOnlyRearms : Obligations.EmptyExpiryOnlyRearms := by
  intro s hblock hdue hcnt
  have hstep := step_idle hblock hdue hcnt
  refine ⟨hstep, fun hinputs => ?_⟩
  obtain ⟨hcount, hne⟩ := ticksOf_fits s.cfg (idlePoll_between s.cfg).1 (idlePoll_between s.cfg).2
  obtain ⟨t, u, hrun, hpend, hnow, hcnt', hrest⟩ := run_expire_then_due
    (s := arm s.cfg.idlePollUs (acknowledge (afterMove s))) (by simp [hinputs]) rfl rfl hne
  have hcount' : (arm s.cfg.idlePollUs (acknowledge (afterMove s))).tmrCount.toNat =
      s.cfg.idlePollUs * s.cfg.ticksPerUs := hcount
  rw [hcount'] at hrun hnow
  obtain ⟨hrun', hdue', hnow', hcnt''⟩ := hrest
  refine ⟨t, u, t.lat, ?_, hpend, hnow, rfl, hcnt'.trans hcnt, hrun', hdue', hnow', hcnt''.trans hcnt⟩
  rw [Nat.add_comm, runSteps_succ _ hstep, hrun]

/-- The frame of a step that begins a slot: its effect leaves the beginning of the slot as it is. -/
theorem step_slot_frame {s t : State} {w : Word} (h : step s = .next t) (hslot : slotBegins s = true)
    (hw : Memory.read s.q s.rd = some w) : ExecFrame (beginSlot w (acknowledge (afterMove s))) t := by
  obtain ⟨w', i, hw', -, hexec⟩ := step_slot h hslot
  cases hw.symm.trans hw'
  exact exec_frame hexec

/-- After a step that begins a slot the timer counts the floored hold of its word, which is not zero (rule R105). -/
theorem step_slot_timer {s t : State} {w : Word} (h : step s = .next t) (hslot : slotBegins s = true)
    (hw : Memory.read s.q s.rd = some w) : t.tmrArmed = true ∧ t.tmrPend = false ∧
      t.tmrCount.toNat = max (w.extractLsb' 16 16).toNat s.cfg.minHoldUs * s.cfg.ticksPerUs ∧
      t.tmrCount ≠ 0#32 := by
  have f := step_slot_frame h hslot hw
  obtain ⟨hpos, hfits⟩ := armedUs_range s.cfg w
  rw [f.tmrArmed, f.tmrPend, f.tmrCount]
  exact ⟨rfl, rfl, ticksOf_fits s.cfg hpos hfits⟩

/-- Settles O14: the effect keeps the timer that the slot has armed, and records behind the Armed event. -/
theorem armedDurationHasTheFloor : Obligations.ArmedDurationHasTheFloor := by
  intro s t w hslot hw h
  obtain ⟨harmed, hpend, hcount, -⟩ := step_slot_timer h hslot hw
  obtain ⟨es, hes, -⟩ := (step_slot_frame h hslot hw).events
  refine ⟨harmed, hpend, hcount, (s.now, .executed w) :: es, ?_⟩
  rw [hes, beginSlot_events, List.append_assoc]
  rfl

/-- Settles O21: the timer that the slot arms runs to the next EXPIRY. -/
theorem slotsAreSpacedByHoldAndLatency : Obligations.SlotsAreSpacedByHoldAndLatency := by
  intro s t w hslot hinputs hw h
  have f := step_slot_frame h hslot hw
  obtain ⟨harmed, hpend, hcount, hne⟩ := step_slot_timer h hslot hw
  have hinputs' : t.inputs = [] := by rw [f.inputs]; simp [hinputs]
  have hnow : t.now = s.now := f.now
  have hdraws : t.draws = s.draws := f.draws
  obtain ⟨⟨u, hrun, hdue, -, -, hnow'⟩, hbefore⟩ := run_to_expiry hinputs' harmed hpend hne
  rw [hcount, hdraws] at hrun hnow' hbefore
  exact ⟨⟨u, hrun, hdue, hnow ▸ hnow'⟩, hbefore⟩

/-! ### The effect of the head action (rules R103, R107, R114) -/

/-- The beginning of a slot, after the acknowledge, as one update of the state. -/
theorem beginSlot_acknowledge_eq (w : Word) (s : State) :
    beginSlot w (acknowledge s) = { s with
      tmrPend := false, tmrArmed := true
      tmrCount := BitVec.ofNat 32 (armedUs s.cfg (holdField w) * s.cfg.ticksPerUs)
      cnt := s.cnt - 1, rd := headAfterAdvance s, wr := tailAfterAdvance s
      events := s.events ++ [(s.now, .armed (armedUs s.cfg (holdField w))), (s.now, .executed w)] } := by
  have hevents := beginSlot_events w (acknowledge s)
  rw [acknowledge_events, acknowledge_now, acknowledge_cfg] at hevents
  rw [← hevents]
  rfl

/-- Settles O17: the handler's part of the step as one update of the state, and the fields that the decoder reads. -/
theorem stepRunsTheDecodedAction : Obligations.StepRunsTheDecodedAction := by
  refine ⟨fun s w i hblock hdue hcnt hrd hw hi => ?step, fun w i hi => ?kind⟩
  case step =>
    obtain ⟨-, -, hhold, -⟩ := (decode_eq_action_iff w i).1 hi
    have hhead : step s = exec i (beginSlot w (acknowledge (afterMove s))) := by
      rw [step_of_slot hblock hdue hcnt, withHead_of_read hrd hw, runHead, hi]
    rw [hhead, beginSlot_acknowledge_eq, ← hhold]
    rfl
  case kind =>
    obtain ⟨-, hkind, -, -⟩ := (decode_eq_action_iff w i).1 hi
    exact ⟨hkind, hkind.symm.trans_le (kind_le_five i)⟩

/-- The value that an action delivers if it carries a callback: the sampled bit, or SR; the other kinds deliver nothing
(rules R122, R123, R126). -/
def delivered (i : Instr) (s : State) : Option Byte :=
  match i with
  | .sampleBit _ _ => some (zextBit (level s))
  | .transferByte _ _ => some s.sr
  | _ => none

/-- An action that delivers a value runs the function bound to its handle, on the queue that the action found. -/
theorem exec_delivers {i : Instr} {s : State} {n : Nat} {v : Byte} (hcb : i.callback = some n)
    (hv : delivered i s = some v) : ∃ u, exec i s = enqueueAll (hostWords s.bindings n v) u ∧
      u.cfg = s.cfg ∧ u.wr = s.wr ∧ u.cnt = s.cnt := by
  cases i with
  | sampleBit m c => cases hcb; cases hv; exact ⟨_, rfl, rfl, rfl, rfl⟩
  | transferByte m c => cases hcb; cases hv; exact ⟨_, rfl, rfl, rfl, rfl⟩
  | _ => cases hv

theorem delivered_of_kind_two {i : Instr} (h : i.kind = 2) (s : State) : delivered i s = some (zextBit (level s)) := by
  cases i with
  | sampleBit m c => rfl
  | _ => cases h

theorem delivered_of_kind_three {i : Instr} (h : i.kind = 3) (s : State) : delivered i s = some s.sr := by
  cases i with
  | transferByte m c => rfl
  | _ => cases h

/-- Under LINEAR the first of several ENQUEUEs, if its word is well-formed and meets room, keeps its slot: the later
ones write behind it (rules R61, R100). -/
theorem enqueueAll_first {x : Word} {xs : List Word} {s t : State} (hq : s.cfg.qdisc = .linear)
    (hx : wfWord x = true) (hwr : s.wr < s.cfg.cap) (h : enqueueAll (x :: xs) s = .next t) :
    s.cnt < t.cnt ∧ Memory.read t.q s.wr = some x := by
  have hfull : isFull s = false := by simp [isFull, hq]; omega
  obtain ⟨u, hu, ht⟩ := enqueueAll_cons.1 h
  cases (enqueue_append hx hfull hwr).symm.trans hu
  obtain ⟨hcnt, hslots⟩ := enqueueAll_slots ht
  refine ⟨hcnt, (hslots s.wr fun j _ => ?_).trans (Memory.read_write_same s.q s.wr x)⟩
  simp only [tailSlot, append_cfg, append_wr, nextSlot, hq]
  omega

/-- Settles O39: the advance leaves RD = WR = 0 and an empty queue, and the callback's first word is appended there. -/
theorem callbackEnqueuesLandBehindTheAdvance : Obligations.CallbackEnqueuesLandBehindTheAdvance := by
  intro s t w x xs i n hs hslot hq hcnt hw hi hcb hwords hx h
  obtain ⟨v, hv, hwords⟩ : ∃ v, delivered i (beginSlot w (acknowledge (afterMove s))) = some v ∧
      hostWords s.bindings n v = x :: xs := by
    rcases hwords with ⟨hkind, hwords⟩ | ⟨hkind, hwords⟩
    · exact ⟨_, delivered_of_kind_two hkind _, hwords⟩
    · exact ⟨_, delivered_of_kind_three hkind _, hwords⟩
  obtain ⟨w', i', hw', hi', hexec⟩ := step_slot h hslot
  cases hw.symm.trans hw'
  cases hi.symm.trans hi'
  obtain ⟨u, hu, hcfg, hwr, -⟩ := exec_delivers hcb hv
  have hwr : u.wr = 0 := hwr.trans ((tailAfterAdvance_linear hs hq).trans (if_pos hcnt))
  have hroom : u.wr < u.cfg.cap := by rw [hwr]; exact u.cfg.cap_pos
  have henq : enqueueAll (x :: xs) u = .next t := hwords ▸ hu.symm.trans hexec
  obtain ⟨hlive, hslot0⟩ := enqueueAll_first (by rw [hcfg]; exact hq) hx hroom henq
  obtain ⟨w'', -, -, hw'', -, -, -, hexecuted⟩ := step_words_of_slot hs h hslot
  cases hw.symm.trans hw''
  have hrd : t.rd = 0 := by rw [step_slot_rd h hslot, headAfterAdvance_linear hs hq, if_pos hcnt]
  exact ⟨hrd, Nat.one_le_of_lt hlive, hwr ▸ hslot0, hexecuted⟩

end Sys2Proof.Machine
end

section
/-! The proofs of the action family (41_actions.md): what each action does and leaves alone, its one callback at most, and
how the sampled bits stand in the shift register. -/

namespace Sys2Proof

/-! ### The low bits of an encoded action (rules R81, R82, R86) -/

/-- The low seven bits of a word that Enc makes are the reserved zeros and the KIND code. -/
theorem lowBits_encode (i : Instr) : (encode i).extractLsb' 0 7 = BitVec.ofNat 7 i.kind := by
  have hkind : i.kind < 2 ^ 3 := Nat.lt_of_le_of_lt (kind_le_five i) (by decide)
  apply BitVec.eq_of_getLsbD_eq
  intro k hk
  rw [encode_eq_packWord, BitVec.getLsbD_extractLsb', packWord_getLsbD, Nat.zero_add]
  by_cases hlow : k < 3
  · simp only [BitVec.getLsbD_ofNat, hk, hlow, if_true]
    rfl
  · have hzero : i.kind.testBit k = false :=
      Nat.testBit_lt_two_pow (hkind.trans_le (Nat.pow_le_pow_right (by decide) (Nat.le_of_not_lt hlow)))
    simp only [BitVec.getLsbD_ofNat, hk, hlow, hzero, if_true, if_false, Bool.and_false]

namespace Machine

/-! ### The effects (rules R122 to R127) -/

theorem level_eq (s : State) : level s = if s.lineDir = .outputLow then false else s.env := by
  unfold level
  cases s.lineDir <;> rfl

theorem zextBit_eq (b : Bool) : zextBit b = if b = true then 1#8 else 0#8 := by
  cases b <;> rfl

/-- Settles O29: SampleBit's callback is given the bit, after the shift. -/
theorem sampleBitShiftsTheLevelIn : Obligations.SampleBitShiftsTheLevelIn := by
  intro hold cb s b after
  have hlevel : level s = b := level_eq s
  have hafter : setShiftRegister (shiftIn (level s) s.sr) (sample s) = after := by
    unfold sample
    rw [hlevel]
    rfl
  refine ⟨?none, fun n => ?some, lowBits_encode _⟩
  case none => exact congrArg _ hafter
  case some =>
    rw [exec_sampleBit, hafter, hlevel, zextBit_eq]
    rfl

/-- Settles O34: every action completes under the invariant, and no callback touches SR. -/
theorem callbackActionsComplete : Obligations.CallbackActionsComplete := by
  intro hold cb s hs
  constructor
  · obtain ⟨t, ht, hinv⟩ := exec_next hs (.sampleBit hold cb)
    exact ⟨t, ht, hinv, (exec_sr_lineDir _ s t ht).1⟩
  · obtain ⟨t, ht, hinv⟩ := exec_next hs (.transferByte hold cb)
    exact ⟨t, ht, hinv, (exec_sr_lineDir _ s t ht).1⟩

/-- Settles O30: both forms of emitTo, and that no callback touches SR. -/
theorem transferByteDeliversShiftRegister : Obligations.TransferByteDeliversShiftRegister :=
  fun hold s => ⟨exec_transferByte hold none s, fun n => exec_transferByte hold (some n) s,
    fun _ t h => (exec_sr_lineDir _ s t h).1⟩

/-- Settles O31: the effect is the state it is given, whatever its level. -/
theorem waitForBusHighHasNoEffect : Obligations.WaitForBusHighHasNoEffect :=
  fun hold cb _ _ => ⟨exec_waitForBusHigh hold cb _, lowBits_encode _⟩

/-- Settles O32: the effect writes SR alone. -/
theorem clearShiftRegisterZeroesIt : Obligations.ClearShiftRegisterZeroesIt :=
  fun hold cb s => ⟨exec_clearShiftRegister hold cb s, lowBits_encode _⟩

/-! ### The frame of the actions -/

/-- An action that delivers nothing to the host, by its kind or for want of a handle, leaves the queue and the record of
ENQUEUEs alone. -/
theorem exec_queue_of_no_callback {i : Instr} {s t : State} (h : exec i s = .next t)
    (hi : i.callback = none ∨ delivered i s = none) :
    t.q = s.q ∧ t.wr = s.wr ∧ t.cnt = s.cnt ∧ t.fault = s.fault ∧ t.drops = s.drops := by
  cases i with
  | sampleBit n c =>
    obtain rfl : c = none := hi.resolve_right nofun
    cases h
    exact ⟨rfl, rfl, rfl, rfl, rfl⟩
  | transferByte n c =>
    obtain rfl : c = none := hi.resolve_right nofun
    cases h
    exact ⟨rfl, rfl, rfl, rfl, rfl⟩
  | _ => cases h; exact ⟨rfl, rfl, rfl, rfl, rfl⟩

/-- A callback's function writes only the slots that the tail index names in turn (rule R114). -/
theorem emitTo_slots {cb : Option Nat} {v : Byte} {s t : State} (h : emitTo cb v s = .next t) :
    s.cnt ≤ t.cnt ∧
      ∀ a, (∀ j < t.cnt - s.cnt, a ≠ tailSlot s j) → Memory.read t.q a = Memory.read s.q a := by
  rcases emitTo_cases h with ⟨-, rfl⟩ | ⟨n, -, henq⟩
  · exact ⟨Nat.le_refl _, fun _ _ => rfl⟩
  · exact (enqueueAll_slots henq :)

/-- An action writes only the slots that the tail index names in turn, one for each word its callback got accepted (rule
R114). -/
theorem exec_slots {i : Instr} {s t : State} (h : exec i s = .next t) :
    s.cnt ≤ t.cnt ∧
      ∀ a, (∀ j < t.cnt - s.cnt, a ≠ tailSlot s j) → Memory.read t.q a = Memory.read s.q a := by
  cases i with
  | sampleBit n c => exact (emitTo_slots h :)
  | transferByte n c => exact emitTo_slots h
  | _ => cases h; exact ⟨Nat.le_refl _, fun _ _ => rfl⟩

/-- Settles O36: the frame of every action, the slots its callback writes, and that without a callback there are none. -/
theorem callbackActionsFrame : Obligations.CallbackActionsFrame := by
  intro hold cb s t i hi h
  have f := exec_frame h
  obtain ⟨hcnt, hslots⟩ := exec_slots h
  obtain ⟨hsr, hline⟩ := exec_sr_lineDir i s t h
  have hcallback : i.callback = cb := by
    rcases List.mem_pair.1 hi with rfl | rfl <;> rfl
  have hlineDir : t.lineDir = s.lineDir := by
    rcases List.mem_pair.1 hi with rfl | rfl <;> exact hline
  refine ⟨f.rd, hlineDir, f.tmrCount, f.tmrArmed, f.tmrPend, f.lat, f.now, f.env, f.cfg, f.bindings, f.inputs, ?sr, hcnt,
    hslots, fun hcb => exec_queue_of_no_callback h (.inl (hcallback.trans hcb))⟩
  case sr =>
    rintro rfl
    exact hsr

/-- Settles O35: the frame of every action, and that these four deliver nothing. -/
theorem lineAndClearActionsFrame : Obligations.LineAndClearActionsFrame := by
  intro hold cb s t i hi h
  have f := exec_frame h
  simp only [List.mem_cons, List.not_mem_nil, or_false] at hi
  have hdelivered : delivered i s = none := by
    rcases hi with rfl | rfl | rfl | rfl <;> rfl
  obtain ⟨hq, hwr, hcnt, hfault, hdrops⟩ := exec_queue_of_no_callback h (.inr hdelivered)
  refine ⟨fun a => by rw [hq], f.rd, hwr, hcnt, f.tmrCount, f.tmrArmed, f.tmrPend, f.lat, f.now, hfault, hdrops, f.env,
    f.cfg, f.bindings, f.inputs, ?sr, ?silent⟩
  case sr =>
    intro hclear
    rcases hi with rfl | rfl | rfl | rfl
    case inr.inr.inr => exact absurd rfl hclear
    all_goals exact (exec_sr_lineDir _ s t h).1
  case silent =>
    rintro (rfl | rfl) <;> cases h <;> exact ⟨rfl, rfl⟩

/-! ### The callbacks (rules R126, R129) -/

/-- Settles O37: only emitTo records a callback. -/
theorem oneCallbackPerCallbackAction : Obligations.OneCallbackPerCallbackAction := by
  intro i s t h
  cases i with
  | sampleBit n c =>
    have hsample : callbacks (sample s).events = callbacks s.events := by
      rw [sample_events, callbacks_append]
      exact List.append_nil _
    obtain ⟨hcallbacks, -, -⟩ := emitTo_history h
    rw [hcallbacks, setShiftRegister_events, hsample]
    cases c <;> rfl
  | transferByte n c =>
    obtain ⟨hcallbacks, -, -⟩ := emitTo_history h
    rw [hcallbacks]
    cases c <;> rfl
  | busLow n c => cases h; exact callbacks_append s.events [(s.now, .dir .outputLow)]
  | releaseBus n c => cases h; exact callbacks_append s.events [(s.now, .dir .input)]
  | waitForBusHigh n c => cases h; exact (List.append_nil _).symm
  | clearShiftRegister n c => cases h; exact (List.append_nil _).symm

/-- Settles O33: the effects of the four kinds do not look at the handle, and none of them records a callback. -/
theorem callbacksOnOtherKindsAreIgnored : Obligations.CallbacksOnOtherKindsAreIgnored := by
  intro hold n s k hk
  simp only [List.mem_cons, List.not_mem_nil, or_false] at hk
  have hcallbacks (t : State) (h : exec (k hold (some n)) s = .next t) : callbacks t.events = callbacks s.events := by
    have hone := oneCallbackPerCallbackAction _ s t h
    rcases hk with rfl | rfl | rfl | rfl <;> exact hone.trans (List.append_nil _)
  rcases hk with rfl | rfl | rfl | rfl <;> exact ⟨rfl, _, rfl, hcallbacks _ rfl⟩

/-! ### The sampled bits in the shift register (rules R122, R128) -/

/-- The shift register after the bits bs are shifted into v, the first one first. -/
def shiftInAll (v : Byte) (bs : List Bool) : Byte := bs.foldl (fun u b => shiftIn b u) v

theorem shiftInAll_append (v : Byte) (as bs : List Bool) :
    shiftInAll v (as ++ bs) = shiftInAll (shiftInAll v as) bs := List.foldl_append

/-- At most eight bits shifted in stand at the top, the first one lowest, above what is left of the old value. -/
theorem shiftInAll_toNat {bs : List Bool} (v : Byte) (h : bs.length ≤ 8) :
    (shiftInAll v bs).toNat = bitsValue bs * 2 ^ (8 - bs.length) + v.toNat / 2 ^ bs.length := by
  induction bs generalizing v with
  | nil => simp [shiftInAll, bitsValue]
  | cons b bs ih =>
    obtain ⟨m, hm⟩ : ∃ m, 7 = m + bs.length := ⟨7 - bs.length, by rw [List.length_cons] at h; omega⟩
    have hold : 8 - bs.length = m + 1 := by omega
    have hnew : 8 - (b :: bs).length = m := by rw [List.length_cons]; omega
    have htop : 128 = 2 ^ m * 2 ^ bs.length := by rw [← pow_add, ← hm]; rfl
    have hrest : v.toNat / 2 / 2 ^ bs.length = v.toNat / 2 ^ (bs.length + 1) := by
      rw [Nat.div_div_eq_div_mul, Nat.pow_succ']
    have hvalue : bitsValue (b :: bs) = b.toNat + 2 * bitsValue bs := rfl
    calc (shiftInAll (shiftIn b v) bs).toNat
        = bitsValue bs * 2 ^ (m + 1) + (128 * b.toNat + v.toNat / 2) / 2 ^ bs.length := by
          rw [ih (shiftIn b v) (by rw [List.length_cons] at h; omega), hold, shiftIn_toNat]
      _ = bitsValue bs * 2 ^ (m + 1) + (b.toNat * 2 ^ m + v.toNat / 2 / 2 ^ bs.length) := by
          rw [htop, show 2 ^ m * 2 ^ bs.length * b.toNat = 2 ^ bs.length * (b.toNat * 2 ^ m) by ring,
            Nat.mul_add_div (Nat.two_pow_pos _)]
      _ = bitsValue (b :: bs) * 2 ^ (8 - (b :: bs).length) + v.toNat / 2 ^ (b :: bs).length := by
          rw [hnew, hvalue, hrest, List.length_cons]
          ring

/-- An action other than ClearShiftRegister shifts in the bits it samples: one or none. -/
theorem exec_shifts_samples {i : Instr} {s t : State} (hi : i.kind ≠ 5) (h : exec i s = .next t) :
    ∃ bs, sampledBits t.events = sampledBits s.events ++ bs ∧ t.sr = shiftInAll s.sr bs := by
  obtain ⟨hsr, -⟩ := exec_sr_lineDir i s t h
  cases i with
  | sampleBit n c =>
    obtain ⟨-, hsampled, -⟩ := emitTo_history h
    exact ⟨[level s], hsampled.trans (sampledBits_append s.events [(s.now, .sampled (level s))]), hsr⟩
  | transferByte n c =>
    obtain ⟨-, hsampled, -⟩ := emitTo_history h
    exact ⟨[], hsampled.trans (List.append_nil _).symm, hsr⟩
  | busLow n c => cases h; exact ⟨[], sampledBits_append s.events [(s.now, .dir .outputLow)], hsr⟩
  | releaseBus n c => cases h; exact ⟨[], sampledBits_append s.events [(s.now, .dir .input)], hsr⟩
  | waitForBusHigh n c => cases h; exact ⟨[], (List.append_nil _).symm, hsr⟩
  | clearShiftRegister n c => exact absurd rfl hi

/-- A run of effects with no ClearShiftRegister among them shifts in the bits it samples, in order. -/
theorem runEffects_shifts_samples {acts : List (Bool × Instr)} {s t : State} (hacts : ∀ a ∈ acts, a.2.kind ≠ 5)
    (h : runEffects acts s = .next t) :
    ∃ bs, sampledBits t.events = sampledBits s.events ++ bs ∧ t.sr = shiftInAll s.sr bs := by
  induction acts generalizing s with
  | nil => cases h; exact ⟨[], (List.append_nil _).symm, rfl⟩
  | cons a acts ih =>
    obtain ⟨hkind, hacts⟩ := List.forall_mem_cons.1 hacts
    obtain ⟨u, hu, ht⟩ := andThen_next.1 h
    obtain ⟨as, has, hsr⟩ := exec_shifts_samples hkind hu
    obtain ⟨bs, hbs, hsr'⟩ := ih hacts ht
    exact ⟨as ++ bs, by rw [hbs, has, List.append_assoc], by rw [hsr', hsr, shiftInAll_append]⟩

/-- Settles O38: the samples alone decide SR, and eight of them shift all of its old value out. -/
theorem eightSamplesAssembleTheByte : Obligations.EightSamplesAssembleTheByte := by
  intro acts s t bits hacts h hbits
  obtain ⟨bs, hbs, hsr⟩ := runEffects_shifts_samples hacts h
  obtain rfl : bs = bits := List.append_cancel_left (hbs.symm.trans hbits)
  refine ⟨fun height => ?eight, fun hzero hle => ?zeroed⟩
  case eight =>
    have hout : s.sr.toNat / 2 ^ 8 = 0 := Nat.div_eq_of_lt s.sr.isLt
    rw [hsr, shiftInAll_toNat _ (Nat.le_of_eq height), height, hout]
    exact Nat.mul_one _
  case zeroed => rw [hsr, shiftInAll_toNat _ hle, hzero, BitVec.toNat_zero, Nat.zero_div, Nat.add_zero]

end Machine
end Sys2Proof
end

section
/-! The proofs of the bus line family (42_bus_line.md): what drives the line and what releases it, and the steps that
may change the level of the bus. -/

namespace Sys2Proof.Machine

/-! ### The level of the line (rule R143) -/

theorem level_of_outputLow {s : State} (h : s.lineDir = .outputLow) : level s = false := by
  rw [level_eq, if_pos h]

theorem level_of_input {s : State} (h : s.lineDir = .input) : level s = s.env := by
  rw [level_eq, h, if_neg (by decide)]

/-! ### The actions of the line (rules R140, R141) -/

/-- Settles O27: the effect is DriveLow(), and a line driven low reads 0. -/
theorem busLowDrivesTheLine : Obligations.BusLowDrivesTheLine :=
  fun hold cb s => ⟨exec_busLow hold cb s, exec_busLow hold cb s, level_of_outputLow (driveLow_lineDir s)⟩

/-- Settles O28: the effect is Release(), and a released line reads as the bus environment gives it. -/
theorem releaseBusReleasesTheLine : Obligations.ReleaseBusReleasesTheLine :=
  fun hold cb s => ⟨exec_releaseBus hold cb s, exec_releaseBus hold cb s, level_of_input (release_lineDir s)⟩

/-! ### The level the bus environment gives (rule R143) -/

/-- A waiting move of the bus environment gives the bus its level and changes nothing else. -/
theorem step_env {s : State} {b : Bool} {rest : List Input} (h : s.inputs = .env b :: rest) :
    step s = .next { s with inputs := rest, env := b } :=
  step_of_inputs_cons h

/-- An EXPIRY, idle poll or slot, leaves the level of the bus alone. -/
theorem blockStep_env_of_due {s t : State} (h : blockStep s = .next t) (hdue : expiryDue s = true) : t.env = s.env := by
  rcases blockStep_cases h with ⟨hdue', -⟩ | ⟨-, -, rfl⟩ | ⟨-, -, -, w, i, -, -, hexec⟩
  · rw [hdue] at hdue'
    cases hdue'
  · rfl
  · exact (exec_frame hexec).env

/-- Only a tick of the block or a move of the bus environment gives the bus a level other than the one it has. -/
theorem step_env_changes {s t : State} (h : step s = .next t) (hne : t.env ≠ s.env) :
    (blockMoves s = true ∧ expiryDue s = false) ∨ s.inputs.head? = some (.env t.env) := by
  rcases step_cases h with ⟨hblock, -, hstep⟩ | ⟨-, -, w, -, henq⟩ | ⟨-, -, n, f, -, rfl⟩ | ⟨-, -, b, hhead, rfl⟩ |
    ⟨-, -, rfl⟩
  · have henv : expiryDue (afterMove s) = true → t.env = s.env := blockStep_env_of_due hstep
    exact .inl ⟨hblock, Bool.eq_false_iff.2 fun hdue => hne (henv hdue)⟩
  · exact absurd (enqueue_frame henq).env hne
  · exact absurd rfl hne
  · exact .inr hhead
  · exact absurd rfl hne

/-- Settles O26: the two cases of the level, the environment's move, and the steps that change its level. -/
theorem lineLevelIsOwnDriveOrEnvironment : Obligations.LineLevelIsOwnDriveOrEnvironment :=
  ⟨fun _ => ⟨level_of_outputLow, level_of_input⟩,
    fun _ _ hinput => ⟨_, step_env rfl, level_of_input hinput, rfl⟩,
    fun _ _ => step_env_changes⟩

end Sys2Proof.Machine
end

section
/-! The proofs of the protocol sequence family (44_protocol_sequences.md): the words of the pseudo-instructions, their
armed times, and what a run of their effects leaves on the line, in the history and in the shift register. -/

namespace Sys2Proof

/-! ### The operands in a packed word (rule R81) -/

/-- The handle is or-ed in above the low byte. -/
theorem packWord_eq_or_handle (k h : Nat) {n : Nat} (v : Bool) (hn : n ≤ 255) :
    packWord k h n v = packWord k h 0 v ||| BitVec.ofNat 32 n <<< 8 := by
  apply BitVec.eq_of_getLsbD_eq
  intro i hi
  simp only [BitVec.getLsbD_or, packWord_getLsbD, BitVec.getLsbD_shiftLeft, BitVec.getLsbD_ofNat]
  by_cases hlow : i < 8
  · simp [hlow]
  by_cases hhandle : i < 16
  · simp [hi, hlow, hhandle, show ¬ i < 3 by omega, show ¬ i < 7 by omega, show i - 8 < 8 by omega,
      show i - 8 < 32 by omega]
  · have hzero : n.testBit (i - 8) = false :=
      Nat.testBit_lt_two_pow (Nat.lt_of_le_of_lt hn (Nat.pow_le_pow_right (by decide : 2 > 0) (by omega : 8 ≤ i - 8)))
    simp [hlow, hhandle, hzero, show ¬ i < 3 by omega, show ¬ i < 7 by omega]

/-- The hold is or-ed in at the top half. -/
theorem packWord_eq_or_hold (k h n : Nat) (v : Bool) :
    packWord k h n v = packWord k 0 n v ||| BitVec.ofNat 32 h <<< 16 := by
  apply BitVec.eq_of_getLsbD_eq
  intro i hi
  simp only [BitVec.getLsbD_or, packWord_getLsbD, BitVec.getLsbD_shiftLeft, BitVec.getLsbD_ofNat]
  by_cases hlow : i < 16
  · simp [hlow]
  · simp [hi, hlow, show ¬ i < 3 by omega, show ¬ i < 7 by omega, show ¬ i < 8 by omega, show i - 16 < 16 by omega,
      show i - 16 < 32 by omega]

/-- The low time of a write bit leaves no room for a higher floor (rules R18, R160). -/
theorem Config.minHoldUs_le_six (c : Config) : c.minHoldUs ≤ 6 := by
  have hfloor : c.minHoldUs ≤ c.w1LowUs := c.w1Low_floor.1
  have hvalues := c.w1Low_values
  omega

namespace Machine

/-! ### A list that fits the queue (rules R150, R207) -/

/-- Settles O12: a list that fits is no longer than the room there is for it. -/
theorem wordsThatFitAreAllAccepted : Obligations.WordsThatFitAreAllAccepted := by
  intro ws s hs hws hlinear hring
  have hfits : ws.length ≤ room s := by
    unfold room
    cases hq : s.cfg.qdisc with
    | linear => have := hlinear hq; simp only; omega
    | ring => have := hring hq; simp only; omega
  obtain ⟨t, ht, hlive, hdrops, hfault⟩ := enqueueAll_room hs hws
  exact ⟨t, ht, by rw [hlive, List.take_of_length_le hfits], by rw [hdrops, Nat.sub_eq_zero_of_le hfits, Nat.add_zero],
    hfault⟩

/-! ### Armed times (rules R159, R160) -/

@[simp] theorem armedTime_nil (c : Config) : armedTime c [] = 0 := rfl

@[simp] theorem armedTime_cons (c : Config) (i : Instr) (is : List Instr) :
    armedTime c (i :: is) = max i.hold c.minHoldUs + armedTime c is := rfl

theorem armedTime_append (c : Config) (is js : List Instr) :
    armedTime c (is ++ js) = armedTime c is + armedTime c js := by
  rw [armedTime, List.map_append, List.sum_append]
  rfl

/-- Blocks of equal armed time. -/
theorem armedTime_flatMap {α : Type} (c : Config) {f : α → List Instr} {us : Nat} (h : ∀ a, armedTime c (f a) = us)
    (l : List α) : armedTime c (l.flatMap f) = l.length * us := by
  induction l with
  | nil => simp
  | cons a l ih => rw [List.flatMap_cons, armedTime_append, h, ih, List.length_cons, Nat.succ_mul, Nat.add_comm]

/-- Either write bit takes 70 µs: no admitted floor binds one of its holds (rule R160). -/
theorem armedTime_writeBit (c : Config) (b : Bool) : armedTime c (writeBitActions c b) = 70 := by
  obtain ⟨hlow, hhigh⟩ := c.w1Low_floor
  have hvalues := c.w1Low_values
  have hsix := c.minHoldUs_le_six
  cases b with
  | false =>
    simp only [writeBitActions, writeBit0Actions, Bool.false_eq_true, if_false, armedTime_cons,
      armedTime_nil, Instr.hold]
    omega
  | true =>
    simp only [writeBitActions, writeBit1Actions, if_true, armedTime_cons,
      armedTime_nil, Instr.hold]
    omega

/-- A read bit samples after 15 µs of its 70 (rules R19, R161). -/
theorem armedTime_readBit (c : Config) (cb : Option Nat) :
    armedTime c ((readBitActions c cb).take 2) = 15 ∧ armedTime c (readBitActions c cb) = 70 := by
  obtain ⟨hlow, hhigh⟩ := c.rdLow_floor
  have hvalues := c.rdLow_values
  have hsix := c.minHoldUs_le_six
  simp only [readBitActions, List.take_succ_cons, List.take_zero, armedTime_cons, armedTime_nil, Instr.hold]
  omega

/-- RESET samples after 550 µs of its 960 (rules R155, R161). -/
theorem armedTime_reset (c : Config) (cb : Option Nat) :
    armedTime c ((Pseudo.expand c (.reset cb)).take 2) = 550 ∧ armedTime c (Pseudo.expand c (.reset cb)) = 960 := by
  have hsix := c.minHoldUs_le_six
  simp only [Pseudo.expand, List.take_succ_cons, List.take_zero, armedTime_cons, armedTime_nil, Instr.hold]
  omega

/-! ### The words of the bits and of RESET (rules R151 to R155) -/

/-- The word of a SampleBit with a handle is the one with handle 0, the handle or-ed in. -/
theorem encode_sampleBit_some (h : Nat) {n : Nat} (hn : n ≤ 255) :
    encode (.sampleBit h (some n)) = encode (.sampleBit h (some 0)) ||| BitVec.ofNat 32 n <<< 8 :=
  packWord_eq_or_handle 2 h true hn

theorem words_readBit_none (c : Config) : Pseudo.words c (.readBit none) =
    [encode (.busLow c.rdLowUs none), encode (.releaseBus (15 - c.rdLowUs) none), 0x00370002#32] := rfl

theorem words_readBit_some (c : Config) {n : Nat} (hn : n ≤ 255) : Pseudo.words c (.readBit (some n)) =
    [encode (.busLow c.rdLowUs none), encode (.releaseBus (15 - c.rdLowUs) none),
      0x00370082#32 ||| BitVec.ofNat 32 n <<< 8] := by
  simp only [Pseudo.words, Pseudo.expand, readBitActions, List.map_cons, List.map_nil, encode_sampleBit_some 55 hn]
  rfl

theorem words_reset_some (c : Config) {n : Nat} (hn : n ≤ 255) : Pseudo.words c (.reset (some n)) =
    [0x01E00000#32, 0x00460001#32, 0x019A0082#32 ||| BitVec.ofNat 32 n <<< 8] := by
  simp only [Pseudo.words, Pseudo.expand, List.map_cons, List.map_nil, encode_sampleBit_some 410 hn]
  rfl

/-- Settles O51: the words by evaluation at each value of W1_LOW_US, the times by `armedTime_writeBit`. -/
theorem writeBitExpansions : Obligations.WriteBitExpansions := by
  intro c
  refine ⟨rfl, fun h => ?six, fun h => ?five, rfl, rfl, armedTime_writeBit c false, armedTime_writeBit c true⟩
  case six => simp only [Pseudo.words, Pseudo.expand, writeBit1Actions, h]; decide
  case five => simp only [Pseudo.words, Pseudo.expand, writeBit1Actions, h]; decide

/-- Settles O52: the words at each value of RD_LOW_US, and the times of the two sequences. -/
theorem readBitAndResetExpansions : Obligations.ReadBitAndResetExpansions := by
  intro c
  refine ⟨fun h => ?six, fun h => ?five, fun n hn => words_reset_some c hn, rfl, fun cb =>
    ⟨(armedTime_readBit c cb).1, (armedTime_readBit c cb).2, armedTime_reset c cb⟩⟩
  case six => exact ⟨by rw [words_readBit_none, h]; rfl, fun n hn => by rw [words_readBit_some c hn, h]; rfl⟩
  case five => exact ⟨by rw [words_readBit_none, h]; rfl, fun n hn => by rw [words_readBit_some c hn, h]; rfl⟩

/-! ### The bytes (rules R156 to R160) -/

/-- The i-th of blocks of equal length. -/
theorem take_drop_flatMap {α β : Type} {f : α → List β} {k : Nat} (hf : ∀ a, (f a).length = k) {l : List α} {i : Nat}
    (hi : i < l.length) : ((l.flatMap f).drop (k * i)).take k = f l[i] := by
  induction l generalizing i with
  | nil => cases hi
  | cons a l ih =>
    rw [List.flatMap_cons]
    cases i with
    | zero => exact List.take_left' (hf a)
    | succ i =>
      have hlen : (f a).length = k := hf a
      rw [Nat.mul_succ, Nat.add_comm, ← List.drop_drop, List.drop_left' hlen]
      exact ih (Nat.lt_of_succ_lt_succ hi)

theorem length_writeBitActions (c : Config) (b : Bool) : (writeBitActions c b).length = 2 := by
  cases b <;> rfl

/-- Settles O53: WRITE_BYTE is blocks of two actions, the i-th for bit i. -/
theorem writeByteGoesLeastSignificantBitFirst : Obligations.WriteByteGoesLeastSignificantBitFirst := by
  intro c v
  have htwo (i : Nat) : (writeBitActions c (v.getLsbD i)).length = 2 := length_writeBitActions c _
  refine ⟨by simp [Pseudo.expand, List.length_flatMap, htwo], fun i hi => ?_⟩
  have hblock := take_drop_flatMap htwo (l := List.range 8) (i := i) (by rwa [List.length_range])
  rw [List.getElem_range] at hblock
  exact hblock

/-- Settles O55: eight write bits of 70 µs each, whatever the bits. -/
theorem writeByteTimeIsTheSameForEveryByte : Obligations.WriteByteTimeIsTheSameForEveryByte :=
  fun c v => armedTime_flatMap c (fun i => armedTime_writeBit c (v.getLsbD i)) (List.range 8)

/-- The eight READ_BITs of a READ_BYTE (rule R157). -/
def eightReadBits (c : Config) : List Instr := (List.range 8).flatMap (fun _ => readBitActions c none)

theorem expand_readByte (c : Config) (n : Nat) :
    Pseudo.expand c (.readByte n) = readByteClearActions c ++ eightReadBits c ++ [.transferByte 0 (some n)] := rfl

theorem length_eightReadBits (c : Config) : (eightReadBits c).length = 24 := rfl

theorem length_readByteClearActions (c : Config) :
    (readByteClearActions c).length = if c.readByteClear.isSome then 1 else 0 := by
  unfold readByteClearActions
  cases c.readByteClear <;> rfl

theorem armedTime_eightReadBits (c : Config) : armedTime c (eightReadBits c) = 560 :=
  armedTime_flatMap c (fun _ => (armedTime_readBit c none).2) (List.range 8)

/-- READ_BYTE without its clear. -/
theorem drop_clear_readByte (c : Config) (n : Nat) :
    (Pseudo.expand c (.readByte n)).drop (if c.readByteClear.isSome then 1 else 0) =
      eightReadBits c ++ [.transferByte 0 (some n)] := by
  rw [expand_readByte, List.append_assoc, ← length_readByteClearActions, List.drop_left]

theorem mem_eightReadBits {c : Config} {i : Instr} (h : i ∈ eightReadBits c) : i.kind ≠ 5 ∧ i.callback = none := by
  obtain ⟨-, -, hi⟩ := List.mem_flatMap.1 h
  simp only [readBitActions, List.mem_cons, List.not_mem_nil, or_false] at hi
  rcases hi with rfl | rfl | rfl <;> exact ⟨nofun, rfl⟩

theorem mem_readByteClearActions {c : Config} {i : Instr} (h : i ∈ readByteClearActions c) :
    i.kind = 5 ∧ i.callback = none := by
  unfold readByteClearActions at h
  cases hclear : c.readByteClear with
  | none => rw [hclear] at h; cases h
  | some n => rw [hclear] at h; rw [List.mem_singleton.1 h]; exact ⟨rfl, rfl⟩

/-- Only the last action of READ_BYTE has a callback. -/
theorem callback_of_mem_readByte_front {c : Config} {i : Instr} (h : i ∈ readByteClearActions c ++ eightReadBits c) :
    i.callback = none :=
  (List.mem_append.1 h).elim (fun hclear => (mem_readByteClearActions hclear).2)
    (fun hread => (mem_eightReadBits hread).2)

/-- Settles O54: the three parts of READ_BYTE, each with its length and its armed time. -/
theorem readByteAndWaitExpansions : Obligations.ReadByteAndWaitExpansions := by
  intro c n h byte rest
  have hrest : rest = eightReadBits c ++ [.transferByte 0 (some n)] := drop_clear_readByte c n
  have htime : armedTime c byte = armedTime c (readByteClearActions c) + 560 + c.minHoldUs := by
    show armedTime c (Pseudo.expand c (.readByte n)) = _
    rw [expand_readByte, armedTime_append, armedTime_append, armedTime_eightReadBits]
    simp [Instr.hold]
  have hlength : byte.length = (readByteClearActions c).length + 25 := by
    show (Pseudo.expand c (.readByte n)).length = _
    rw [expand_readByte, List.length_append, List.length_append, length_eightReadBits]
    rfl
  refine ⟨fun hclear => ?absent, fun hclear => ?present, fun i hi => ?bits, ?last, fun i hi => ?silent, fun hn => ?word,
    fun hh => ?wait, rfl⟩
  case absent =>
    have hnil : readByteClearActions c = [] := by rw [readByteClearActions, hclear]
    rw [hlength, htime, hnil]
    exact ⟨rfl, by rw [armedTime_nil, Nat.zero_add]⟩
  case present =>
    have hone : readByteClearActions c = [.clearShiftRegister h none] := by rw [readByteClearActions, hclear]
    rw [hlength, htime, hone]
    refine ⟨rfl, ?_, rfl⟩
    show (Pseudo.expand c (.readByte n)).head? = _
    rw [expand_readByte, hone]
    rfl
  case bits =>
    have hle : 3 * i + 3 ≤ (eightReadBits c).length := by rw [length_eightReadBits]; omega
    rw [hrest, List.drop_append_of_le_length (by omega), List.take_append_of_le_length (by rw [List.length_drop]; omega)]
    exact take_drop_flatMap (f := fun _ => readBitActions c none) (fun _ => rfl) (by rwa [List.length_range])
  case last => rw [hrest]; exact List.drop_left' (length_eightReadBits c)
  case silent => exact callback_of_mem_readByte_front (List.dropLast_concat ▸ hi)
  case word =>
    rw [Pseudo.words, expand_readByte, List.map_append, List.map_singleton, List.getLast?_concat]
    exact congrArg some (packWord_eq_or_handle 3 0 true hn)
  case wait => exact congrArg (· :: []) (packWord_eq_or_hold 4 h 0 false)

/-! ### The line along a run of effects (rules R140, R141, R145) -/

/-- The direction an action leaves the line in. -/
def lineAfter (d : LineDir) : Instr → LineDir
  | .busLow _ _ => .outputLow
  | .releaseBus _ _ => .input
  | _ => d

theorem exec_lineDir {i : Instr} {s t : State} (h : exec i s = .next t) : t.lineDir = lineAfter s.lineDir i := by
  obtain ⟨-, hline⟩ := exec_sr_lineDir i s t h
  cases i <;> exact hline

theorem runEffects_lineDir {acts : List (Bool × Instr)} {s t : State} (h : runEffects acts s = .next t) :
    t.lineDir = (acts.map Prod.snd).foldl lineAfter s.lineDir := by
  induction acts generalizing s with
  | nil => cases h; rfl
  | cons a acts ih =>
    obtain ⟨u, hu, ht⟩ := andThen_next.1 h
    rw [ih ht, exec_lineDir hu]
    rfl

/-- Blocks that each keep the line released keep it released together. -/
theorem foldl_lineAfter_flatMap {α : Type} {f : α → List Instr} (hf : ∀ a, (f a).foldl lineAfter .input = .input)
    (l : List α) : (l.flatMap f).foldl lineAfter .input = .input := by
  rw [List.foldl_flatMap]
  exact List.foldl_fixed' hf l

theorem foldl_lineAfter_writeBit (c : Config) (b : Bool) :
    (writeBitActions c b).foldl lineAfter .input = .input := by
  cases b <;> rfl

/-- Every expansion keeps a released line released. -/
theorem foldl_lineAfter_expand (c : Config) (p : Pseudo) : (Pseudo.expand c p).foldl lineAfter .input = .input := by
  cases p with
  | writeBit b => exact foldl_lineAfter_writeBit c b
  | writeByte v => exact foldl_lineAfter_flatMap (fun i => foldl_lineAfter_writeBit c (v.getLsbD i)) _
  | readByte n =>
    rw [expand_readByte, readByteClearActions]
    cases c.readByteClear <;> rfl
  | _ => rfl

/-- Settles O56: the run leaves the line as the actions do, one after the other. -/
theorem expansionsEndReleased : Obligations.ExpansionsEndReleased := by
  intro c p levels s t hlen hs h
  rw [runEffects_lineDir h, List.map_snd_zip (Nat.le_of_eq hlen.symm), hs]
  exact foldl_lineAfter_expand c p

/-! ### The samples and callbacks of a run of effects (rules R122, R128, R129) -/

/-- The levels given to the SampleBits of a run. -/
def sampleLevels (acts : List (Bool × Instr)) : List Bool := (acts.filter (fun a => a.2.kind = 2)).map Prod.fst

theorem sampleLevels_append (as bs : List (Bool × Instr)) :
    sampleLevels (as ++ bs) = sampleLevels as ++ sampleLevels bs := by
  simp [sampleLevels]

theorem sampleLevels_eq_nil {acts : List (Bool × Instr)} (h : ∀ a ∈ acts, a.2.kind ≠ 2) : sampleLevels acts = [] := by
  rw [sampleLevels, List.filter_eq_nil_iff.2 (by simpa using h), List.map_nil]

theorem length_sampleLevels (acts : List (Bool × Instr)) :
    (sampleLevels acts).length = (acts.map Prod.snd).countP (fun i => i.kind = 2) := by
  rw [sampleLevels, List.length_map, ← List.countP_eq_length_filter, List.countP_map]
  rfl

/-- Each SampleBit of the list finds the line released, if it starts in direction d. -/
def samplesReleased : LineDir → List Instr → Bool
  | _, [] => true
  | d, i :: is => (i.kind != 2 || d == .input) && samplesReleased (lineAfter d i) is

/-- A SampleBit on the released line samples the level of the bus, and no other action samples. -/
theorem exec_sampledBits {i : Instr} {b : Bool} {s t : State} (hline : (i.kind != 2 || s.lineDir == .input) = true)
    (h : exec i { s with env := b } = .next t) :
    sampledBits t.events = sampledBits s.events ++ sampleLevels [(b, i)] := by
  cases i with
  | sampleBit n c =>
    obtain ⟨-, hsampled, -⟩ := emitTo_history h
    have hlevel : level { s with env := b } = b := level_of_input (by simpa [Instr.kind] using hline)
    rw [hsampled, setShiftRegister_events, sample_events, hlevel]
    exact sampledBits_append s.events [(s.now, .sampled b)]
  | transferByte n c =>
    obtain ⟨-, hsampled, -⟩ := emitTo_history h
    exact hsampled.trans (List.append_nil _).symm
  | busLow n c => cases h; exact sampledBits_append s.events [(s.now, .dir .outputLow)]
  | releaseBus n c => cases h; exact sampledBits_append s.events [(s.now, .dir .input)]
  | waitForBusHigh n c => cases h; exact (List.append_nil _).symm
  | clearShiftRegister n c => cases h; exact (List.append_nil _).symm

/-- A run whose SampleBits all find the line released samples the levels given to them, in order. -/
theorem runEffects_sampledBits {acts : List (Bool × Instr)} {s t : State}
    (hline : samplesReleased s.lineDir (acts.map Prod.snd) = true) (h : runEffects acts s = .next t) :
    sampledBits t.events = sampledBits s.events ++ sampleLevels acts := by
  induction acts generalizing s with
  | nil => cases h; exact (List.append_nil _).symm
  | cons a acts ih =>
    obtain ⟨hfirst, hrest⟩ := Bool.and_eq_true_iff.1 hline
    obtain ⟨u, hu, ht⟩ := andThen_next.1 h
    rw [← exec_lineDir hu] at hrest
    rw [ih hrest ht, exec_sampledBits hfirst hu, List.append_assoc, ← sampleLevels_append]
    rfl

/-- An action without a handle delivers no callback. -/
theorem exec_callbacks_of_no_handle {i : Instr} {s t : State} (hi : i.callback = none) (h : exec i s = .next t) :
    callbacks t.events = callbacks s.events := by
  rw [oneCallbackPerCallbackAction i s t h]
  cases i with
  | sampleBit n c => obtain rfl : c = none := hi; exact List.append_nil _
  | transferByte n c => obtain rfl : c = none := hi; exact List.append_nil _
  | _ => exact List.append_nil _

theorem runEffects_callbacks_of_no_handle {acts : List (Bool × Instr)} {s t : State}
    (hacts : ∀ i ∈ acts.map Prod.snd, i.callback = none) (h : runEffects acts s = .next t) :
    callbacks t.events = callbacks s.events := by
  induction acts generalizing s with
  | nil => cases h; rfl
  | cons a acts ih =>
    obtain ⟨ha, hacts⟩ := List.forall_mem_cons.1 hacts
    obtain ⟨u, hu, ht⟩ := andThen_next.1 h
    exact (ih hacts ht).trans (exec_callbacks_of_no_handle (s := { s with env := a.1 }) ha hu)

/-! ### READ_BYTE (rule R157) -/

/-- Each sample of READ_BYTE comes after its own ReleaseBus, so it does not matter how the line starts. -/
theorem samplesReleased_readByte (c : Config) (n : Nat) (d : LineDir) :
    samplesReleased d (Pseudo.expand c (.readByte n)) = true := by
  rw [expand_readByte, readByteClearActions]
  cases c.readByteClear <;> rfl

theorem samplesReleased_eightReadBits (c : Config) (d : LineDir) : samplesReleased d (eightReadBits c) = true := rfl

/-- Eight READ_BITs sample the eight levels they are given and make SR their byte. -/
theorem runEffects_eightReadBits {c : Config} {acts : List (Bool × Instr)} {s t : State}
    (hacts : acts.map Prod.snd = eightReadBits c) (h : runEffects acts s = .next t) :
    (sampleLevels acts).length = 8 ∧ t.sr = BitVec.ofNat 8 (bitsValue (sampleLevels acts)) := by
  have hsampled := runEffects_sampledBits (by rw [hacts]; exact samplesReleased_eightReadBits c _) h
  have height : (sampleLevels acts).length = 8 := by rw [length_sampleLevels, hacts]; rfl
  have hkinds : ∀ a ∈ acts, a.2.kind ≠ 5 := fun a ha =>
    (mem_eightReadBits (hacts ▸ List.mem_map_of_mem ha)).1
  obtain ⟨hsr, -⟩ := eightSamplesAssembleTheByte acts s t (sampleLevels acts) hkinds h hsampled
  refine ⟨height, ?_⟩
  rw [← hsr height, BitVec.ofNat_toNat, BitVec.setWidth_eq]

/-- Settles O57: the clear and the read bits deliver nothing, the read bits alone sample and make SR the byte, and
TransferByte delivers it. -/
theorem readByteDeliversTheSampledByte : Obligations.ReadByteDeliversTheSampledByte := by
  intro c n levels s hs hlen acts bits
  have hacts : acts.map Prod.snd = readByteClearActions c ++ eightReadBits c ++ [.transferByte 0 (some n)] :=
    List.map_snd_zip (Nat.le_of_eq hlen.symm)
  obtain ⟨t, ht, -⟩ := runEffects_next acts hs
  have hsampled : sampledBits t.events = sampledBits s.events ++ bits :=
    runEffects_sampledBits (by rw [hacts]; exact samplesReleased_readByte c n _) ht
  obtain ⟨front, last, hsplit, hfront, hlast⟩ := List.map_eq_append_iff.1 hacts
  obtain ⟨clear, reads, rfl, hclear, hreads⟩ := List.map_eq_append_iff.1 hfront
  obtain ⟨⟨b, i⟩, rfl, hi⟩ := List.map_eq_singleton_iff.1 hlast
  obtain rfl : i = .transferByte 0 (some n) := hi
  have hbits : bits = sampleLevels reads := by
    have hsilent : sampleLevels clear = [] := sampleLevels_eq_nil fun a ha => by
      rw [(mem_readByteClearActions (hclear ▸ List.mem_map_of_mem ha)).1]; decide
    show sampleLevels acts = _
    rw [hsplit, sampleLevels_append, sampleLevels_append, hsilent, List.nil_append]
    exact List.append_nil _
  have hrun := ht
  rw [hsplit, runEffects_append] at hrun
  obtain ⟨v, hv, hvt⟩ := andThen_next.1 hrun
  have hcallbacks := runEffects_callbacks_of_no_handle
    (by rw [hfront]; exact fun i => callback_of_mem_readByte_front) hv
  rw [runEffects_append] at hv
  obtain ⟨u, -, huv⟩ := andThen_next.1 hv
  obtain ⟨height, hsr⟩ := runEffects_eightReadBits hreads huv
  obtain ⟨t', htransfer, htt⟩ := andThen_next.1 hvt
  obtain rfl : t' = t := by cases htt; rfl
  refine ⟨t', ht, by rw [hbits, height], hsampled, ?_⟩
  rw [oneCallbackPerCallbackAction _ _ _ htransfer, hbits, ← hsr, ← hcallbacks]

end Machine
end Sys2Proof
end

section
/-! The proofs of the exceptions family (60_exceptions.md): the fault record, and the timer: what arms it, how a tick
counts it down, and what sets and clears its pending flag. -/

namespace Sys2Proof.Machine

/-! ### The fault record (rules R100, R170) -/

/-- A raise of faults clears no bit (rule R170). -/
theorem raiseFaults_sticky (cs : List FaultCode) {s : State} {i : Nat} (h : s.fault.getLsbD i = true) :
    (raiseFaults cs s).fault.getLsbD i = true := by
  induction cs generalizing s with
  | nil => exact h
  | cons c cs ih => exact ih ((or_bit_getLsbD s.fault c i).2 (.inl h))

/-- From s to t no bit of FAULT was cleared, every word accepted is well-formed, and if FAULT changed then the history
records, at the time of s, the fault of an ill-formed word. -/
structure FaultsRecorded (s t : State) : Prop where
  sticky : ∀ i, s.fault.getLsbD i = true → t.fault.getLsbD i = true
  recorded : ∃ es, t.events = s.events ++ es ∧ (∀ w ∈ acceptedWords es, wfWord w = true) ∧
    (t.fault ≠ s.fault → ∃ w codes, (s.now, Event.faulted w codes) ∈ es ∧ wfWord w = false)

/-- Where FAULT is as before and only well-formed words are accepted, there is nothing to record. -/
theorem FaultsRecorded.of_fault_eq {s t : State} (fault : t.fault = s.fault) (es : List (Nat × Event))
    (events : t.events = s.events ++ es) (accepted : ∀ w ∈ acceptedWords es, wfWord w = true := by exact nofun) :
    FaultsRecorded s t where
  sticky := fun i hi => by rwa [fault]
  recorded := ⟨es, events, accepted, fun hne => absurd fault hne⟩

theorem FaultsRecorded.of_eq {s t : State} (fault : t.fault = s.fault) (events : t.events = s.events) :
    FaultsRecorded s t :=
  .of_fault_eq fault [] (events.trans (List.append_nil _).symm)

/-- Parts of a step compose, if the first takes no time. -/
theorem FaultsRecorded.trans {s t u : State} (h : FaultsRecorded s t) (now : t.now = s.now) (h' : FaultsRecorded t u) :
    FaultsRecorded s u where
  sticky := fun i hi => h'.sticky i (h.sticky i hi)
  recorded := by
    obtain ⟨es, hes, haccepted, hfaulted⟩ := h.recorded
    obtain ⟨fs, hfs, haccepted', hfaulted'⟩ := h'.recorded
    refine ⟨es ++ fs, by rw [hfs, hes, List.append_assoc], fun w hw => ?_, fun hne => ?_⟩
    · rw [acceptedWords_append] at hw
      exact (List.mem_append.1 hw).elim (haccepted w) (haccepted' w)
    · by_cases heq : u.fault = t.fault
      · obtain ⟨w, codes, hmem, hwf⟩ := hfaulted (heq ▸ hne)
        exact ⟨w, codes, List.mem_append_left fs hmem, hwf⟩
      · obtain ⟨w, codes, hmem, hwf⟩ := hfaulted' heq
        exact ⟨w, codes, List.mem_append_right es (now ▸ hmem), hwf⟩

/-- An ENQUEUE faults an ill-formed word and records it, and appends only a well-formed one (rule R100). -/
theorem enqueue_faultsRecorded {w : Word} {s t : State} (h : enqueue w s = .next t) : FaultsRecorded s t := by
  rcases enqueue_cases h with ⟨hwf, rfl⟩ | ⟨-, -, rfl⟩ | ⟨hwf, -, -, rfl⟩
  case inl =>
    exact {
      sticky := fun i hi => raiseFaults_sticky (rsvdCodes w) hi
      recorded := ⟨[(s.now, .faulted w (rsvdCodes w))], by simp, nofun,
        fun _ => ⟨w, rsvdCodes w, List.mem_singleton_self _, hwf⟩⟩ }
  case inr.inl => exact .of_fault_eq rfl [(s.now, .dropped w)] rfl
  case inr.inr => exact .of_fault_eq rfl [(s.now, .enqueued w)] rfl (by simpa [acceptedWords] using hwf)

theorem enqueueAll_faultsRecorded {ws : List Word} {s t : State} (h : enqueueAll ws s = .next t) :
    FaultsRecorded s t := by
  induction ws generalizing s with
  | nil => cases h; exact .of_eq rfl rfl
  | cons w ws ih =>
    obtain ⟨u, hu, ht⟩ := enqueueAll_cons.1 h
    exact (enqueue_faultsRecorded hu).trans (enqueue_frame hu).now (ih ht)

theorem emitTo_faultsRecorded {cb : Option Nat} {v : Byte} {s t : State} (h : emitTo cb v s = .next t) :
    FaultsRecorded s t := by
  rcases emitTo_cases h with ⟨-, rfl⟩ | ⟨n, -, henq⟩
  · exact .of_eq rfl rfl
  · have hlog : FaultsRecorded s (log (.callback n v) s) := .of_fault_eq rfl [(s.now, .callback n v)] rfl
    exact hlog.trans rfl (enqueueAll_faultsRecorded henq)

/-- An effect raises a fault only through what its callback ENQUEUEs. -/
theorem exec_faultsRecorded {i : Instr} {s t : State} (h : exec i s = .next t) : FaultsRecorded s t := by
  cases i with
  | busLow n c => cases h; exact .of_fault_eq rfl [(s.now, .dir .outputLow)] rfl
  | releaseBus n c => cases h; exact .of_fault_eq rfl [(s.now, .dir .input)] rfl
  | sampleBit n c =>
    have hsample : FaultsRecorded s (setShiftRegister (shiftIn (level s) s.sr) (sample s)) :=
      .of_fault_eq rfl [(s.now, .sampled (level s))] rfl
    exact hsample.trans rfl (emitTo_faultsRecorded h)
  | transferByte n c => exact emitTo_faultsRecorded h
  | waitForBusHigh n c => cases h; exact .of_eq rfl rfl
  | clearShiftRegister n c => cases h; exact .of_eq rfl rfl

/-- Every step but a reset keeps the set bits of FAULT and records what changes it. -/
theorem step_faultsRecorded {s t : State} (h : step s = .next t) (hreset : resetMoves s = false) :
    FaultsRecorded s t := by
  rcases step_kinds h with ⟨-, -, -, -, -, -, w, i, -, -, hexec⟩ | ⟨-, -, -, -, -, rfl⟩ | ⟨-, -, -, -, rfl⟩ |
    ⟨-, -, -, w, henq⟩ | ⟨-, -, -, n, f, rfl⟩ | ⟨-, -, -, b, rfl⟩ | ⟨hreset', -⟩
  · have hbegin : FaultsRecorded s (beginSlot w (acknowledge (afterMove s))) :=
      .of_fault_eq rfl [(s.now, .armed (armedUs s.cfg (holdField w))), (s.now, .executed w)] (beginSlot_events _ _)
    exact hbegin.trans rfl (exec_faultsRecorded hexec)
  · exact .of_fault_eq rfl [(s.now, .armed s.cfg.idlePollUs)] rfl
  · exact .of_eq (tick_fault _) (tick_events _)
  · have hmove : FaultsRecorded s (afterMove s) := .of_eq rfl rfl
    exact hmove.trans rfl (enqueue_faultsRecorded henq)
  · exact .of_eq rfl rfl
  · exact .of_eq rfl rfl
  · rw [hreset] at hreset'
    cases hreset'

/-- Settles O5: a step records each change of FAULT with an ill-formed word, and the words it accepts are well-formed. -/
theorem faultBitsAreSticky : Obligations.FaultBitsAreSticky := by
  refine ⟨fun c s => ⟨_, rfl, or_bit_getLsbD s.fault c⟩, fun s t h hreset => ?step, fun s t h hreset => ?reset⟩
  case step =>
    obtain ⟨hsticky, es, hes, haccepted, hfaulted⟩ := step_faultsRecorded h hreset
    refine ⟨hsticky, fun hne => ?_⟩
    obtain ⟨w, codes, hmem, hwf⟩ := hfaulted hne
    refine ⟨es, w, codes, hes, hmem, fun hw => ?_⟩
    rw [haccepted w hw] at hwf
    cases hwf
  case reset => rw [step_eq_resetBlock h hreset]; rfl

/-! ### The timer under a tick (rule R182) -/

/-- Everything a tick can do to the timer: it is stopped and stays so, or the tick ends its count, or it counts on. -/
theorem tick_timer_cases (s : State) :
    (s.tmrArmed = false ∧ (tick s).tmrCount = s.tmrCount ∧ (tick s).tmrArmed = false ∧
      (tick s).tmrPend = s.tmrPend) ∨
    (s.tmrArmed = true ∧ s.tmrCount = 1#32 ∧ (tick s).tmrCount = 0#32 ∧ (tick s).tmrArmed = false ∧
      (tick s).tmrPend = true) ∨
    (s.tmrArmed = true ∧ s.tmrCount ≠ 1#32 ∧ (tick s).tmrCount = s.tmrCount - 1#32 ∧ (tick s).tmrArmed = true ∧
      (tick s).tmrPend = s.tmrPend) := by
  rw [Ne, ← sub_eq_zero (a := s.tmrCount)]
  unfold tick countDown
  split
  case isTrue harmed =>
    split
    case isTrue hend => exact .inr (.inl ⟨harmed, hend, hend, rfl, rfl⟩)
    case isFalse hleft => exact .inr (.inr ⟨harmed, hleft, rfl, harmed, rfl⟩)
  case isFalse hstopped => exact .inl ⟨Bool.eq_false_iff.2 hstopped, rfl, Bool.eq_false_iff.2 hstopped, rfl⟩

/-- A tick takes one off the count of an armed timer, and leaves that of a stopped one. -/
theorem tick_tmrCount (s : State) :
    (tick s).tmrCount = if s.tmrArmed = true then s.tmrCount - 1#32 else s.tmrCount := by
  rcases tick_timer_cases s with ⟨ha, ht, -⟩ | ⟨ha, h1, ht, -⟩ | ⟨ha, -, ht, -⟩
  · simp [ha, ht]
  · simp [ha, h1, ht]
  · simp [ha, ht]

/-- After a tick an expiry is pending if one was, or if the tick ended the count. -/
theorem tick_tmrPend (s : State) :
    (tick s).tmrPend = true ↔ s.tmrPend = true ∨ (s.tmrArmed = true ∧ s.tmrCount = 1#32) := by
  rcases tick_timer_cases s with ⟨ha, -, -, ht⟩ | ⟨ha, h1, -, -, ht⟩ | ⟨-, h1, -, -, ht⟩
  · simp [ha, ht]
  · simp [ha, h1, ht]
  · simp [h1, ht]

/-- A tick leaves a stopped timer alone. -/
theorem tick_timer_of_stopped {s : State} (h : s.tmrArmed = false) :
    (tick s).tmrCount = s.tmrCount ∧ (tick s).tmrArmed = false ∧ (tick s).tmrPend = s.tmrPend := by
  rcases tick_timer_cases s with ⟨-, ht⟩ | ⟨ha, -⟩ | ⟨ha, -⟩
  · exact ht
  · simp [h] at ha
  · simp [h] at ha

/-- The count of an armed duration fits 32 bits, the zero one included (rules R14, R181). -/
theorem ticksOf_toNat (c : Config) {us : Nat} (hfits : us ≤ 65535) :
    (BitVec.ofNat 32 (ticksOf c us)).toNat = us * c.ticksPerUs := by
  rcases Nat.eq_zero_or_pos us with rfl | hpos
  · simp [ticksOf]
  · exact (ticksOf_fits c hpos hfits).1

/-- Settles O20: an armed timer counts its ticks one a step, and a tick leaves a stopped timer as it is. -/
theorem expiryComesExactlyAtTheEndOfTheCount : Obligations.ExpiryComesExactlyAtTheEndOfTheCount := by
  refine ⟨fun s us k hpos hfits hpend hinputs hk => ?_, fun s hstopped => tick_timer_of_stopped hstopped⟩
  obtain ⟨hcount, hne⟩ := ticksOf_fits s.cfg hpos hfits
  have hcount' : (arm us s).tmrCount.toNat = us * s.cfg.ticksPerUs := hcount
  obtain ⟨t, hrun, hnow, hleft, harmed, hpend', hq, hcnt, hsr, hline, -⟩ :=
    run_count (s := arm us s) hinputs rfl hpend k (hcount' ▸ hk) hne
  rw [hcount'] at hleft harmed hpend'
  exact ⟨t, hrun, hnow, hleft, harmed, hpend', hq, hcnt, hsr, hline⟩

/-! ### The timer under a step (rules R178, R181, R182) -/

theorem expiryDue_eq_true_iff (s : State) : expiryDue s = true ↔ s.tmrPend = true ∧ s.lat = 0 := by
  simp [expiryDue]

/-- An EXPIRY acknowledges, and arms the timer for a duration that fits and is not zero: the idle poll if the queue is
empty, else the floored hold of the head word (rules R103, R104, R181). -/
theorem step_expiry_timer {s t : State} (h : step s = .next t) (hblock : blockMoves s = true)
    (hdue : expiryDue s = true) : t.tmrPend = false ∧
      ∃ us, s.cfg.minHoldUs ≤ us ∧ us ≤ 65535 ∧
        t.tmrArmed = true ∧ t.tmrCount.toNat = us * s.cfg.ticksPerUs ∧ t.tmrCount ≠ 0#32 ∧
        (s.cnt = 0 → us = s.cfg.idlePollUs) ∧
        (s.cnt ≠ 0 → ∃ w, Memory.read s.q s.rd = some w ∧
          us = max (w.extractLsb' 16 16).toNat s.cfg.minHoldUs) := by
  by_cases hcnt : s.cnt = 0
  · cases (step_idle hblock hdue hcnt).symm.trans h
    obtain ⟨hpos, hfits⟩ := idlePoll_between s.cfg
    obtain ⟨hcount, hne⟩ := ticksOf_fits s.cfg hpos hfits
    exact ⟨rfl, s.cfg.idlePollUs, s.cfg.idlePoll_range.1, hfits, rfl, hcount, hne, fun _ => rfl,
      fun hc => absurd hcnt hc⟩
  · have hslot := (slotBegins_eq_true_iff s).2 ⟨hblock, hdue, hcnt⟩
    obtain ⟨w, -, hw, -⟩ := step_slot h hslot
    obtain ⟨harmed, hpend, hcount, hne⟩ := step_slot_timer h hslot hw
    exact ⟨hpend, armedUs s.cfg (holdField w), le_max_right _ _, (armedUs_range s.cfg w).2, harmed, hcount, hne,
      fun hc => absurd hc hcnt, fun _ => ⟨w, hw, rfl⟩⟩

/-- A step that is neither a reset nor an EXPIRY is a tick, or leaves the timer alone. -/
theorem step_timer_of_no_expiry {s t : State} (h : step s = .next t) (hreset : resetMoves s = false)
    (hexpiry : (blockMoves s && expiryDue s) = false) :
    (blockMoves s = true ∧ t = tick (afterMove s)) ∨
    (blockMoves s = false ∧ t.tmrCount = s.tmrCount ∧ t.tmrArmed = s.tmrArmed ∧ t.tmrPend = s.tmrPend) := by
  rcases step_kinds h with ⟨-, -, hblock, hdue, -⟩ | ⟨-, -, hblock, hdue, -⟩ | ⟨-, -, hblock, -, rfl⟩ |
    ⟨-, -, hblock, w, henq⟩ | ⟨-, -, hblock, n, f, rfl⟩ | ⟨-, -, hblock, b, rfl⟩ | ⟨hreset', -⟩
  · simp [hblock, hdue] at hexpiry
  · simp [hblock, hdue] at hexpiry
  · exact .inl ⟨hblock, rfl⟩
  · have f := enqueue_frame henq
    exact .inr ⟨hblock, f.tmrCount, f.tmrArmed, f.tmrPend⟩
  · exact .inr ⟨hblock, rfl, rfl, rfl⟩
  · exact .inr ⟨hblock, rfl, rfl, rfl⟩
  · simp [hreset] at hreset'

/-- Settles O23: an EXPIRY acknowledges, a tick only sets the flag, and no other step touches it. -/
theorem onlyExpiryAcknowledges : Obligations.OnlyExpiryAcknowledges := by
  intro s t h hreset
  cases hexpiry : blockMoves s && expiryDue s with
  | true =>
    obtain ⟨hblock, hdue⟩ := Bool.and_eq_true_iff.1 hexpiry
    obtain ⟨hpend, hlat⟩ := (expiryDue_eq_true_iff s).1 hdue
    obtain ⟨hack, -⟩ := step_expiry_timer h hblock hdue
    simp [hpend, hack, hblock, hlat]
  | false =>
    rcases step_timer_of_no_expiry h hreset hexpiry with ⟨hblock, rfl⟩ | ⟨hblock, -, -, hpend⟩
    · have hlat : s.tmrPend = true → s.lat ≠ 0 := by simpa [hblock, expiryDue] using hexpiry
      refine ⟨fun hs => ?set, fun hs => ?clear⟩
      case set => simp [← Bool.not_eq_true, tick_tmrPend, hs, hlat hs]
      case clear => simp [tick_tmrPend, hs, hblock]
    · simp +contextual [hblock, hpend]

/-- Settles O24: what Arm does, what an EXPIRY and a reset arm for, and what the other steps make of the timer. -/
theorem armLoadsTheTimer : Obligations.ArmLoadsTheTimer := by
  refine ⟨fun us s => ⟨rfl, fun hfits => ticksOf_toNat s.cfg hfits⟩, fun s t h hblock hdue => ?expiry,
    fun s t h hreset => ?reset, fun s t h hreset hexpiry => ?other⟩
  case expiry =>
    obtain ⟨-, harms⟩ := step_expiry_timer h hblock hdue
    exact harms
  case reset =>
    rw [step_eq_resetBlock h hreset]
    exact ⟨rfl, ticksOf_toNat s.cfg (idlePoll_between s.cfg).2⟩
  case other =>
    rcases step_timer_of_no_expiry h hreset hexpiry with ⟨hblock, rfl⟩ | ⟨hblock, hcount, harmed, -⟩
    · refine ⟨fun ht => ?armed, (tick_tmrCount _).trans (if_congr (by simp [hblock]) rfl rfl)⟩
      case armed =>
        by_contra hs
        obtain ⟨-, hstopped, -⟩ := tick_timer_of_stopped (s := afterMove s) (Bool.eq_false_iff.2 hs)
        simp [hstopped] at ht
    · exact ⟨fun ht => harmed ▸ ht, by simp [hcount, hblock]⟩

end Sys2Proof.Machine
end

section
/-! The proofs of the reset and hazards family (70_reset_and_hazards.md): the way from reset to the first EXPIRY, with
agents outside the block moving before it, and that the effects do not depend on the timing. -/

namespace Sys2Proof.Machine

/-! ### The words that arrive on the way to an EXPIRY (rules R71, R100, R203) -/

/-- The well-formed words among the moves' ENQUEUEs, in order. -/
def offeredWords (ms : List Input) : List Word := (enqueueMoves ms).filter wfWord

theorem offeredWords_cons (m : Input) (ms : List Input) :
    offeredWords (m :: ms) = offeredWords [m] ++ offeredWords ms := by
  rw [← List.singleton_append, offeredWords, enqueueMoves, List.filterMap_append, List.filter_append]
  rfl

/-- From s to t, d ticks passed and the well-formed words `ws` came to ENQUEUE, of which the queue took as many as it
had room for; no word was executed. -/
structure Intake (ws : List Word) (d : Nat) (s t : State) : Prop where
  now : t.now = s.now + d
  live : liveWords t = liveWords s ++ ws.take (room s)
  room : room t = room s - ws.length
  executed : executedWords t.events = executedWords s.events

/-- Where the live words, the room and the history are as before, no word came. -/
theorem Intake.nil {d : Nat} {s t : State} (now : t.now = s.now + d) (live : liveWords t = liveWords s)
    (room : Machine.room t = Machine.room s) (events : t.events = s.events) : Intake [] d s t where
  now := now
  live := by rw [live, List.take_nil, List.append_nil]
  room := room
  executed := by rw [events]

theorem Intake.trans {a b : List Word} {d e : Nat} {s t u : State} (h : Intake a d s t) (h' : Intake b e t u) :
    Intake (a ++ b) (d + e) s u where
  now := by rw [h'.now, h.now, Nat.add_assoc]
  live := by rw [h'.live, h.live, h.room, List.take_append, List.append_assoc]
  room := by rw [h'.room, h.room, List.length_append, Nat.sub_sub]
  executed := h'.executed.trans h.executed

/-- A tick takes no word in. -/
theorem tick_intake (s : State) : Intake [] 1 s (tick s) :=
  .nil (tick_now s) (liveWords_tick s) (by simp [room]) (tick_events s)

/-- An ENQUEUE takes its word in if it is well-formed and there is room. -/
theorem enqueue_intake {w : Word} {s t : State} (hs : Inv s) (h : enqueue w s = .next t) :
    Intake ([w].filter wfWord) 0 s t := by
  have f := enqueue_frame h
  obtain ⟨es, hes, hsilent⟩ := f.events
  obtain ⟨-, -, hexecuted⟩ := ofEnqueue_silent fun e he => (hsilent e he).2
  have hfull_iff := room_eq_zero_iff hs
  obtain ⟨hlive, hroom⟩ : liveWords t = liveWords s ++ ([w].filter wfWord).take (room s) ∧
      room t = room s - ([w].filter wfWord).length := by
    rcases enqueue_cases h with ⟨hw, rfl⟩ | ⟨-, hfull, rfl⟩ | ⟨hw, hfull, -, rfl⟩
    · have hlive := liveWords_of_eq (s := s) (t := log (.faulted w (rsvdCodes w)) (raiseFaults (rsvdCodes w) s))
        (by simp) (by simp) (by simp) (by simp)
      simp [hw, hlive, room]
    · have hnone : room s = 0 := hfull_iff.2 hfull
      rw [hnone, List.take_zero, List.append_nil, Nat.zero_sub]
      exact ⟨liveWords_of_eq rfl rfl rfl rfl, hnone⟩
    · obtain ⟨k, hk⟩ := Nat.exists_eq_succ_of_ne_zero (mt hfull_iff.1 (by simp [hfull]))
      simp [hw, liveWords_append hs hfull, room_append, hk]
  exact ⟨f.now, hlive, hroom, by rw [hes, executedWords_append, hexecuted, List.append_nil]⟩

/-! ### The way to the EXPIRY (rules R112, R179, R182, R203) -/

/-- The EXPIRY is n ticks away and the moves `ms` wait. -/
structure Awaits (ms : List Input) (n : Nat) (s : State) : Prop where
  inv : Inv s
  inputs : s.inputs = ms
  ticks : TicksToExpiry n s

/-- The run of k steps from s leads to u, where the EXPIRY is due, and it was not due before. -/
structure FirstDue (k : Nat) (s u : State) : Prop where
  run : runSteps k s = .next u
  due : expiryDue u = true
  before : ∀ j < k, ∃ v, runSteps j s = .next v ∧ expiryDue v = false

theorem FirstDue.refl {s : State} (h : expiryDue s = true) : FirstDue 0 s s := ⟨rfl, h, nofun⟩

/-- A step from a state with no EXPIRY due may come first. -/
theorem FirstDue.cons {k : Nat} {s t u : State} (hs : expiryDue s = false) (hstep : step s = .next t)
    (h : FirstDue k t u) : FirstDue (k + 1) s u where
  run := (runSteps_succ k hstep).trans h.run
  due := h.due
  before := fun j hj => by
    cases j with
    | zero => exact ⟨s, rfl, hs⟩
    | succ j =>
      rw [runSteps_succ j hstep]
      exact h.before j (Nat.lt_of_succ_lt_succ hj)

/-- The block's own step, with the EXPIRY still to come, is a tick towards it. -/
theorem Awaits.step_block {ms : List Input} {n : Nat} {s : State} (h : Awaits ms (n + 1) s)
    (hblock : blockMoves s = true) :
    ∃ t, step s = .next t ∧ Awaits ms.tail n t ∧ Intake [] 1 s t := by
  have hdue : expiryDue (afterMove s) = false := by simp [h.ticks.due]
  have hmoved : TicksToExpiry (n + 1) (afterMove s) := h.ticks.of_eq rfl rfl rfl rfl rfl
  have hmove : Intake [] 0 s (afterMove s) := .nil rfl rfl rfl rfl
  refine ⟨tick (afterMove s), (Machine.step_block hblock).trans (blockStep_of_not_due hdue),
    ⟨h.inv.afterMove.tick, by simp [h.inputs], hmoved.tick⟩, ?_⟩
  simpa using hmove.trans (tick_intake _)

/-- A waiting move other than a reset is used up; a `pass` is a tick, and no other one moves the EXPIRY. -/
theorem Awaits.step_move {m : Input} {ms : List Input} {n : Nat} {s : State} (h : Awaits (m :: ms) n s)
    (hm : m ≠ .reset) (hn : n ≠ 0) :
    ∃ t, step s = .next t ∧ Awaits ms (n - [m].count .pass) t ∧
      Intake (offeredWords [m]) ([m].count .pass) s t := by
  have hstep := step_of_inputs_cons h.inputs
  have hrest : Inv { s with inputs := ms } := h.inv.of_eq rfl rfl rfl rfl rfl rfl rfl rfl rfl
  cases m with
  | enqueue w =>
    obtain ⟨t, ht, hinv⟩ := enqueue_next hrest w
    have f := enqueue_frame ht
    have hmove : Intake [] 0 s { s with inputs := ms } := .nil rfl rfl rfl rfl
    exact ⟨t, hstep.trans ht, ⟨hinv, f.inputs, h.ticks.of_eq f.tmrArmed f.tmrPend f.tmrCount f.lat f.draws⟩,
      hmove.trans (enqueue_intake hrest ht)⟩
  | bind k f => exact ⟨_, hstep, ⟨hrest.bind k f, rfl, h.ticks.of_eq rfl rfl rfl rfl rfl⟩, .nil rfl rfl rfl rfl⟩
  | env b =>
    exact ⟨_, hstep, ⟨hrest.of_eq rfl rfl rfl rfl rfl rfl rfl rfl rfl, rfl, h.ticks.of_eq rfl rfl rfl rfl rfl⟩,
      .nil rfl rfl rfl rfl⟩
  | reset => exact absurd rfl hm
  | pass =>
    obtain ⟨n, rfl⟩ := Nat.exists_eq_succ_of_ne_zero hn
    exact h.step_block (by simp [blockMoves, h.inputs])

/-- With no move waiting, the ticks that are left lead to the EXPIRY. -/
theorem Awaits.run_ticks {n : Nat} {s : State} (h : Awaits [] n s) :
    ∃ u, FirstDue n s u ∧ Awaits [] 0 u ∧ Intake [] n s u := by
  induction n generalizing s with
  | zero => exact ⟨s, .refl (by simp [h.ticks.due]), h, .nil rfl rfl rfl rfl⟩
  | succ n ih =>
    obtain ⟨t, hstep, ht, hin⟩ := h.step_block (by simp [blockMoves, h.inputs])
    obtain ⟨u, hfirst, hu, hin'⟩ := ih ht
    exact ⟨u, hfirst.cons (by simp [h.ticks.due]) hstep, hu, Nat.add_comm 1 n ▸ hin.trans hin'⟩

/-- With moves waiting, passes for fewer ticks than are left among them and no reset: each move but a `pass` takes a
step beside the ticks, and the words that come are taken in while there is room. -/
theorem Awaits.run {ms : List Input} {n : Nat} {s : State} (h : Awaits ms n s) (hreset : ∀ m ∈ ms, m ≠ .reset)
    (hpass : ms.count .pass < n) :
    ∃ u, FirstDue (ms.length - ms.count .pass + n) s u ∧ Awaits [] 0 u ∧ Intake (offeredWords ms) n s u := by
  induction ms generalizing n s with
  | nil => simpa [offeredWords, enqueueMoves] using h.run_ticks
  | cons m ms ih =>
    obtain ⟨hm, hms⟩ := List.forall_mem_cons.1 hreset
    have hcount : (m :: ms).count .pass = [m].count .pass + ms.count .pass := List.count_append (l₁ := [m])
    have hone : [m].count .pass ≤ 1 := List.count_le_length
    have hle : ms.count .pass ≤ ms.length := List.count_le_length
    obtain ⟨t, hstep, ht, hin⟩ := h.step_move hm (by omega)
    obtain ⟨u, hfirst, hu, hin'⟩ := ih ht hms (by omega)
    have hdue : expiryDue s = false := by rw [h.ticks.due]; exact decide_eq_false (by omega)
    have hsteps : (m :: ms).length - (m :: ms).count .pass + n =
        ms.length - ms.count .pass + (n - [m].count .pass) + 1 := by rw [List.length_cons]; omega
    have hticks : [m].count .pass + (n - [m].count .pass) = n := by omega
    rw [hsteps, offeredWords_cons]
    exact ⟨u, hfirst.cons hdue hstep, hu, hticks ▸ hin.trans hin'⟩

/-! ### The first EXPIRY after reset (rule R203) -/

/-- From reset the EXPIRY is the idle poll and the first latency draw away. -/
theorem awaits_resetWith (c : Config) (ms : List Input) :
    Awaits ms (c.idlePollUs * c.ticksPerUs + Config.latencyDraw (c.idlePollUs * c.ticksPerUs))
      { State.resetWith c with inputs := ms } := by
  obtain ⟨hcount, hne⟩ := ticksOf_fits c (idlePoll_between c).1 (idlePoll_between c).2
  have hcount : (State.resetWith c).tmrCount.toNat = c.idlePollUs * c.ticksPerUs := hcount
  refine ⟨(Inv.resetWith c).of_eq rfl rfl rfl rfl rfl rfl rfl rfl rfl, rfl, ⟨rfl, fun _ => hne, ?left⟩⟩
  case left =>
    have hdraw : (State.resetWith c).draws + c.idlePollUs * c.ticksPerUs - 1 = c.idlePollUs * c.ticksPerUs :=
      Nat.add_sub_cancel_left ..
    simp only [hcount, hdraw]
    rfl

/-- An EXPIRY executes, now, the first of the live words, or none if there is none (rules R103, R104). -/
theorem step_executes_first {s t : State} (hs : Inv s) (h : step s = .next t) (hblock : blockMoves s = true)
    (hdue : expiryDue s = true) :
    executedWords t.events = executedWords s.events ++ (liveWords s).take 1 ∧
      ∀ w ∈ (liveWords s).take 1, (s.now, Event.executed w) ∈ t.events := by
  by_cases hcnt : s.cnt = 0
  · cases (step_idle hblock hdue hcnt).symm.trans h
    have hnone : liveWords s = [] := List.eq_nil_of_length_eq_zero ((liveWords_length hs).trans hcnt)
    rw [hnone, arm_events, executedWords_append]
    exact ⟨rfl, nofun⟩
  · have hslot := (slotBegins_eq_true_iff s).2 ⟨hblock, hdue, hcnt⟩
    obtain ⟨w, rest, new, hw, hlive, -, -, hexecuted⟩ := step_words_of_slot hs h hslot
    obtain ⟨es, hes, -⟩ := (step_slot_frame h hslot hw).events
    refine ⟨by rw [hexecuted, hlive]; rfl, ?_⟩
    simp [hlive, hes]

/-- Settles O22: the moves before the first EXPIRY are used up one a step, the ticks lead to it, and it executes the
head of what the queue took in. -/
theorem firstExpiryAfterReset : Obligations.FirstExpiryAfterReset := by
  refine ⟨fun s hinputs harmed hpend hcount => ?counting, fun c ms hreset => ?reset⟩
  case counting =>
    obtain ⟨⟨u, hrun, hdue, -, hlive, hnow⟩, hbefore⟩ := run_to_expiry hinputs harmed hpend hcount
    exact ⟨⟨u, hrun, hdue, hnow, hlive⟩, hbefore⟩
  case reset =>
    intro poll ε accepted steps hpass
    obtain ⟨u, hfirst, hu, hin⟩ := (awaits_resetWith c ms).run hreset hpass
    have hlive : liveWords u = accepted.take c.cap := hin.live.trans (congrArg accepted.take (room_resetWith c))
    have hnow : u.now = poll + ε := hin.now.trans (Nat.zero_add _)
    have hhead : (liveWords u).take 1 = accepted.take 1 := by
      rw [hlive, List.take_take, Nat.min_eq_left c.cap_pos]
    obtain ⟨v, hstep⟩ := step_next hu.inv
    obtain ⟨hexecuted, hevents⟩ :=
      step_executes_first hu.inv hstep (by simp [blockMoves, hu.inputs]) hfirst.due
    have hexecuted : executedWords v.events = accepted.take 1 := by rw [hexecuted, hin.executed, hhead]; rfl
    rw [hhead, ← hexecuted, hnow] at hevents
    exact ⟨⟨u, v, hfirst.run, hfirst.due, hnow, hlive, hstep, hexecuted, hevents⟩, hfirst.before⟩

/-! ### The effects do not depend on the timing (rule R213) -/

/-- Recording an event and erasing the times commute. -/
theorem eraseTiming_log (e : Event) (s : State) : eraseTiming (log e s) = log e (eraseTiming s) := by
  simp [eraseTiming, log]

theorem eraseTiming_raiseFaults (cs : List FaultCode) (s : State) :
    eraseTiming (raiseFaults cs s) = raiseFaults cs (eraseTiming s) := by
  induction cs generalizing s with
  | nil => rfl
  | cons c cs ih => exact ih (raiseFault c s)

theorem enqueue_eraseTiming (w : Word) (s : State) :
    enqueue w (eraseTiming s) = mapNext eraseTiming (enqueue w s) := by
  have hfull : isFull (eraseTiming s) = isFull s := rfl
  unfold enqueue
  cases rsvdCodes w with
  | cons c cs => simp only [mapNext, eraseTiming_log, eraseTiming_raiseFaults]
  | nil =>
    simp only [hfull, apply_ite (mapNext eraseTiming)]
    simp only [mapNext, append, eraseTiming_log]
    rfl

theorem enqueueAll_eraseTiming (ws : List Word) (s : State) :
    enqueueAll ws (eraseTiming s) = mapNext eraseTiming (enqueueAll ws s) := by
  induction ws generalizing s with
  | nil => rfl
  | cons w ws ih =>
    simp only [enqueueAll, enqueue_eraseTiming]
    cases enqueue w s with
    | next t => exact ih t
    | fault r => rfl
    | refused r => rfl

theorem emitTo_eraseTiming (cb : Option Nat) (v : Byte) (s : State) :
    emitTo cb v (eraseTiming s) = mapNext eraseTiming (emitTo cb v s) := by
  cases cb with
  | none => rfl
  | some n =>
    have h := enqueueAll_eraseTiming (hostWords s.bindings n v) (log (.callback n v) s)
    rwa [eraseTiming_log] at h

/-- An effect neither reads nor writes the timing, beside the time it gives to what it records. -/
theorem exec_eraseTiming (i : Instr) (s : State) : exec i (eraseTiming s) = mapNext eraseTiming (exec i s) := by
  cases i with
  | busLow n c => exact congrArg Host.Outcome.next (eraseTiming_log _ { s with lineDir := .outputLow }).symm
  | releaseBus n c => exact congrArg Host.Outcome.next (eraseTiming_log _ { s with lineDir := .input }).symm
  | sampleBit n c =>
    have h := emitTo_eraseTiming c (zextBit (level s))
      (log (.sampled (level s)) { s with sr := shiftIn (level s) s.sr })
    rwa [eraseTiming_log] at h
  | transferByte n c => exact emitTo_eraseTiming c s.sr s
  | waitForBusHigh n c => rfl
  | clearShiftRegister n c => rfl

/-- Settles O44: each effect commutes with the erasure of the timing. -/
theorem effectsDoNotDependOnTiming : Obligations.EffectsDoNotDependOnTiming := by
  intro i s s' t hs h
  have hsame : mapNext eraseTiming (exec i s') = .next (eraseTiming t) := by
    rw [← exec_eraseTiming, ← hs, exec_eraseTiming, h]
    rfl
  obtain ⟨t', ht', ht⟩ := mapNext_eq_next_iff.1 hsame
  exact ⟨t', ht', ht.symm⟩

end Sys2Proof.Machine
end

section
/-! The proof of the encoding examples (30_encoding.md section 4; V-E13 to V-E19): each word is what Enc makes of its
action, or carries the fault codes of its reserved form. -/

namespace Sys2Proof

/-- A word that Enc makes of a well-formed action decodes to that action (rule R95). -/
theorem decode_eq_action_of_encode_eq {w : Word} {i : Instr} (hi : i.wellFormed = true) (h : encode i = w) :
    decode w = .action i :=
  h ▸ decode_encode hi

/-- A word with something wrong decodes to what is wrong with it (rules R88, R89, R95). -/
theorem decode_eq_reserved_of_codes {w : Word} {codes : List FaultCode} (h : rsvdCodes w = codes)
    (hne : codes ≠ []) : decode w = .reserved codes := by
  subst h
  exact decode_of_not_wf ((wfWord_eq_false_iff w).2 hne)

/-- Settles O3: Enc makes the first seven words of their actions, and the last four carry the codes listed. -/
theorem exampleWordsDecode : Obligations.ExampleWordsDecode := by
  refine ⟨?busLow, ?releaseBus, ?sampleBit, ?transferByte, ?waitForBusHigh, ?clearShiftRegister, ?largestHold,
    ?reservedKind, ?reservedBits, ?strayHandle, ?bothForms⟩
  case busLow | releaseBus | sampleBit | transferByte | waitForBusHigh | clearShiftRegister | largestHold =>
    exact decode_eq_action_of_encode_eq rfl (by decide)
  case reservedKind | reservedBits | strayHandle | bothForms =>
    exact decode_eq_reserved_of_codes (by decide) (by decide)

end Sys2Proof
end
